-- ==== Sys2Proof/Word.lean ====
section
/-!
DEFINITION. The word types of the core and their plainest arithmetic (spec/00_scope.md R10 to R13).
-/

namespace Sys2Proof

/-- A 32-bit value with no fixed signedness (R11). -/
abbrev Word := BitVec 32

/-- The contents of one byte address (R70). -/
abbrev Byte := BitVec 8

/-- A general register's index, 0 to 31: a 5-bit field, so no other index can be formed (R30). -/
abbrev RegIdx := BitVec 5

/-- The Word 1 when the condition holds and 0 otherwise (R12). -/
def bool32 (c : Bool) : Word := if c then 1 else 0

end Sys2Proof
end

