-- ==== Sys2Proof/Config.lean ====
section
/-!
DEFINITION. What an implementation or a launch fixes (spec/00_scope.md R9): the launch parameters that hold for a
whole run, and the values the model's own reset launch takes for the parameters the spec leaves open.
No value of this hardware is left undefined after an instruction, so there is no free value here.
-/

namespace Sys2Proof

/-- The parameters fixed for a whole run: the valid address range `[memBase, memBase + memSize)` (R71) and the
register ECALL reads its exit code from (R310). No step changes them. -/
structure Params where
  memBase : Nat
  memSize : Nat
  exitReg : RegIdx
  deriving DecidableEq, Repr

/-- The range lies in the 32-bit address space, as integers (R71). -/
abbrev Params.wf (p : Params) : Prop := p.memBase + p.memSize ≤ 2 ^ 32

/-- EXIT_REG's default, x10 (R9). DESIGN CHOICE (the spec's D7), unsafe: log 5. -/
def Config.defaultExitReg : RegIdx := 10

/-- The reset launch's parameters: every address of the 32-bit space is valid.
DESIGN CHOICE, unsafe: log 3 (the spec leaves MEM_BASE and MEM_SIZE open). -/
def Config.resetParams : Params :=
  { memBase := 0, memSize := 2 ^ 32, exitReg := Config.defaultExitReg }

/-- The reset launch's ENTRY_PC. DESIGN CHOICE, unsafe: log 4. -/
def Config.resetEntryPc : Word := 0

/-- The reset launch's INIT_GPR, x1 to x31. DESIGN CHOICE, unsafe: log 1. -/
def Config.resetGpr : Vector Word 31 := Vector.replicate 31 0

/-- What a byte of memory reads as that the memory's list does not name. DESIGN CHOICE, unsafe: log 2. -/
def Config.unlistedByte : Byte := 0

end Sys2Proof
end

