-- ==== Sys2Proof/Machine/State.lean ====
section
/-!
DEFINITION. The core's whole state (spec/10_state.md R46, R48), its faults, the reasons a step can stop, and launch.
-/

namespace Sys2Proof.Machine

/-- The width of a memory access: 1, 2 or 4 bytes (R74). -/
inductive Width where
  | byte
  | half
  | word
  deriving DecidableEq, Repr

/-- The number of bytes an access of this width touches. -/
def Width.bytes : Width → Nat
  | .byte => 1
  | .half => 2
  | .word => 4

/-- The three faults (R330), with their payloads. Each ends the run and is recorded in the run state of a NEXT state, so
that the machine's registers, pc and memory stay open to inspection (R331, R333); no step answers `Outcome.fault`
(DEDUCED, safe: log 7). -/
inductive Fault where
  /-- Raised by decode, for a fetched word that is no instruction (R334). Safe: the spec's own effect. -/
  | illegalInstruction (word : Word)
  /-- Raised by fetch and by LB LH LW LBU LHU SB SH SW, for an access outside the valid range (R335). Safe: the spec's own effect. -/
  | outOfBounds (addr : Word) (width : Width)
  /-- Raised by fetch, for a pc that is not a multiple of 4 (R336). Safe: the spec's own effect. -/
  | misalignedFetch (pc : Word)
  deriving DecidableEq, Repr

/-- The reasons a step could answer with no meaning. -/
inductive Refusal where
  /-- Raised by an arm of `exec` for an instruction with no meaning yet; no arm does so. Safe: the machine stops. -/
  | notModelled (mnemonic : String)
  deriving DecidableEq, Repr

/-- The run state (R42): the driver's state machine. -/
inductive RunState where
  | running
  | halted (code : Word)
  | faulted (fault : Fault) (pc : Word)
  deriving DecidableEq, Repr

/-- Memory as (address, byte) pairs; an address it does not list reads as `Config.unlistedByte` (R70, R78). -/
abbrev Memory := List Host.Cell

/-- The one form a memory has: addresses strictly rising, nothing listed that an unlisted address already reads as. -/
abbrev Memory.wf (m : Memory) : Prop :=
  m.Pairwise (fun c d => c.1 < d.1) ∧ ∀ c ∈ m, c.2 ≠ Config.unlistedByte

/-- The state of the core (R46), with the launch parameters that are fixed for the run beside it (R48; log 6). -/
structure State where
  /-- x1 to x31: x<i> stands at index i - 1; x0 is not stored (R46). -/
  x : Vector Word 31
  /-- The address of the instruction to be fetched (R36). -/
  pc : Word
  /-- The bytes of memory (R70). -/
  mem : Memory
  /-- Running, Halted or Faulted (R42). -/
  run : RunState
  /-- MEM_BASE, MEM_SIZE and EXIT_REG (R9, R48). -/
  params : Params
  deriving DecidableEq, Repr

/-- What a launch is given (R370, R9): the loader's memory and entry point and the launch parameters. -/
structure Launch where
  params : Params
  entryPc : Word
  gpr : Vector Word 31
  mem : Memory
  deriving DecidableEq, Repr

/-- Launch, the core's one initialisation: Running at the entry point, whatever it is (R47, R48, R370, R371). -/
def State.launch (l : Launch) : State :=
  { x := l.gpr, pc := l.entryPc, mem := l.mem, run := .running, params := l.params }

/-- The launch that `State.reset` is, at the values the model chooses for the open parameters (logs 1 to 5). -/
def Launch.reset : Launch :=
  { params := Config.resetParams, entryPc := Config.resetEntryPc, gpr := Config.resetGpr, mem := [] }

/-- The core right after the reset launch: Running, with no program in its memory (log 8). -/
def State.reset : State := State.launch Launch.reset

end Sys2Proof.Machine
end

