-- ==== Sys2Proof/Machine/Flags.lean ====
section
/-!
DEFINITION. The hardware has no flags and no condition codes (spec/10_state.md R40): what this file holds is every
condition an instruction computes from two Words (R12; 40_alu.md R204, R205, R212, R213; 42_branch.md R271 to R276).
-/

namespace Sys2Proof.Machine

/-- `a == b` (R271). -/
def condEq (a b : Word) : Bool := a == b

/-- `a <s b`: signed less than (R12). -/
def condLtS (a b : Word) : Bool := a.slt b

/-- `a <u b`: unsigned less than (R12). -/
def condLtU (a b : Word) : Bool := a.ult b

end Sys2Proof.Machine
end

