-- ==== Sys2Proof/Syntax.lean ====
section
/-!
DEFINITION. The decoded instruction (spec/30_encoding.md R120): one constructor per row of the instruction list R150,
each with the fields of its format and its immediate as the sign-extended 32-bit Word.
-/

namespace Sys2Proof

/-- A decoded instruction. `imm` is the whole Word the decoder assembles (R119): for SLLI, SRLI and SRAI it is `imm_I`,
whose low 5 bits are the shift amount; for FENCE it is `imm_I`, which nothing reads (R136). ECALL and EBREAK are single
words, so their records' fixed fields (rd = rs1 = 0, imm 0 or 1) are not repeated here (R120; DEDUCED, safe: log 11). -/
inductive Instr where
  | lui   (rd : RegIdx) (imm : Word)
  | auipc (rd : RegIdx) (imm : Word)
  | jal   (rd : RegIdx) (imm : Word)
  | jalr  (rd rs1 : RegIdx) (imm : Word)
  | beq   (rs1 rs2 : RegIdx) (imm : Word)
  | bne   (rs1 rs2 : RegIdx) (imm : Word)
  | blt   (rs1 rs2 : RegIdx) (imm : Word)
  | bge   (rs1 rs2 : RegIdx) (imm : Word)
  | bltu  (rs1 rs2 : RegIdx) (imm : Word)
  | bgeu  (rs1 rs2 : RegIdx) (imm : Word)
  | lb    (rd rs1 : RegIdx) (imm : Word)
  | lh    (rd rs1 : RegIdx) (imm : Word)
  | lw    (rd rs1 : RegIdx) (imm : Word)
  | lbu   (rd rs1 : RegIdx) (imm : Word)
  | lhu   (rd rs1 : RegIdx) (imm : Word)
  | sb    (rs1 rs2 : RegIdx) (imm : Word)
  | sh    (rs1 rs2 : RegIdx) (imm : Word)
  | sw    (rs1 rs2 : RegIdx) (imm : Word)
  | addi  (rd rs1 : RegIdx) (imm : Word)
  | slti  (rd rs1 : RegIdx) (imm : Word)
  | sltiu (rd rs1 : RegIdx) (imm : Word)
  | xori  (rd rs1 : RegIdx) (imm : Word)
  | ori   (rd rs1 : RegIdx) (imm : Word)
  | andi  (rd rs1 : RegIdx) (imm : Word)
  | slli  (rd rs1 : RegIdx) (imm : Word)
  | srli  (rd rs1 : RegIdx) (imm : Word)
  | srai  (rd rs1 : RegIdx) (imm : Word)
  | add   (rd rs1 rs2 : RegIdx)
  | sub   (rd rs1 rs2 : RegIdx)
  | sll   (rd rs1 rs2 : RegIdx)
  | slt   (rd rs1 rs2 : RegIdx)
  | sltu  (rd rs1 rs2 : RegIdx)
  | xor   (rd rs1 rs2 : RegIdx)
  | srl   (rd rs1 rs2 : RegIdx)
  | sra   (rd rs1 rs2 : RegIdx)
  | or    (rd rs1 rs2 : RegIdx)
  | and   (rd rs1 rs2 : RegIdx)
  | fence (rd rs1 : RegIdx) (imm : Word)
  | ecall
  | ebreak
  deriving DecidableEq, Repr

/-- The instruction's name in the instruction list (R150). -/
def Instr.mnemonic : Instr → String
  | .lui ..   => "LUI"
  | .auipc .. => "AUIPC"
  | .jal ..   => "JAL"
  | .jalr ..  => "JALR"
  | .beq ..   => "BEQ"
  | .bne ..   => "BNE"
  | .blt ..   => "BLT"
  | .bge ..   => "BGE"
  | .bltu ..  => "BLTU"
  | .bgeu ..  => "BGEU"
  | .lb ..    => "LB"
  | .lh ..    => "LH"
  | .lw ..    => "LW"
  | .lbu ..   => "LBU"
  | .lhu ..   => "LHU"
  | .sb ..    => "SB"
  | .sh ..    => "SH"
  | .sw ..    => "SW"
  | .addi ..  => "ADDI"
  | .slti ..  => "SLTI"
  | .sltiu .. => "SLTIU"
  | .xori ..  => "XORI"
  | .ori ..   => "ORI"
  | .andi ..  => "ANDI"
  | .slli ..  => "SLLI"
  | .srli ..  => "SRLI"
  | .srai ..  => "SRAI"
  | .add ..   => "ADD"
  | .sub ..   => "SUB"
  | .sll ..   => "SLL"
  | .slt ..   => "SLT"
  | .sltu ..  => "SLTU"
  | .xor ..   => "XOR"
  | .srl ..   => "SRL"
  | .sra ..   => "SRA"
  | .or ..    => "OR"
  | .and ..   => "AND"
  | .fence .. => "FENCE"
  | .ecall    => "ECALL"
  | .ebreak   => "EBREAK"

/-- The register an instruction writes, none for one that writes no register (R35). FENCE's rd field is not read (R136). -/
def Instr.dest : Instr → Option RegIdx
  | .lui rd _ | .auipc rd _ | .jal rd _ => some rd
  | .jalr rd _ _ => some rd
  | .beq .. | .bne .. | .blt .. | .bge .. | .bltu .. | .bgeu .. => none
  | .lb rd _ _ | .lh rd _ _ | .lw rd _ _ | .lbu rd _ _ | .lhu rd _ _ => some rd
  | .sb .. | .sh .. | .sw .. => none
  | .addi rd _ _ | .slti rd _ _ | .sltiu rd _ _ | .xori rd _ _ | .ori rd _ _ | .andi rd _ _ => some rd
  | .slli rd _ _ | .srli rd _ _ | .srai rd _ _ => some rd
  | .add rd _ _ | .sub rd _ _ | .sll rd _ _ | .slt rd _ _ | .sltu rd _ _ => some rd
  | .xor rd _ _ | .srl rd _ _ | .sra rd _ _ | .or rd _ _ | .and rd _ _ => some rd
  | .fence .. | .ecall | .ebreak => none

/-- The registers an instruction reads, given the register EXIT_REG that ECALL reads (R35). -/
def Instr.sources (exitReg : RegIdx) : Instr → List RegIdx
  | .lui .. | .auipc .. | .jal .. => []
  | .jalr _ rs1 _ => [rs1]
  | .beq rs1 rs2 _ | .bne rs1 rs2 _ | .blt rs1 rs2 _ => [rs1, rs2]
  | .bge rs1 rs2 _ | .bltu rs1 rs2 _ | .bgeu rs1 rs2 _ => [rs1, rs2]
  | .lb _ rs1 _ | .lh _ rs1 _ | .lw _ rs1 _ | .lbu _ rs1 _ | .lhu _ rs1 _ => [rs1]
  | .sb rs1 rs2 _ | .sh rs1 rs2 _ | .sw rs1 rs2 _ => [rs1, rs2]
  | .addi _ rs1 _ | .slti _ rs1 _ | .sltiu _ rs1 _ | .xori _ rs1 _ | .ori _ rs1 _ | .andi _ rs1 _ => [rs1]
  | .slli _ rs1 _ | .srli _ rs1 _ | .srai _ rs1 _ => [rs1]
  | .add _ rs1 rs2 | .sub _ rs1 rs2 | .sll _ rs1 rs2 | .slt _ rs1 rs2 | .sltu _ rs1 rs2 => [rs1, rs2]
  | .xor _ rs1 rs2 | .srl _ rs1 rs2 | .sra _ rs1 rs2 | .or _ rs1 rs2 | .and _ rs1 rs2 => [rs1, rs2]
  | .fence .. | .ebreak => []
  | .ecall => [exitReg]

end Sys2Proof
end

