-- ==== Sys2Proof/WellFormed.lean ====
section
/-!
DEFINITION. Which terms of `Instr` are instructions: those whose immediate is one its format can spell
(spec/30_encoding.md R114 to R118, R124). Register indices are 5-bit by their type (R30).
-/

namespace Sys2Proof

/-- An I- or S-immediate is the sign extension of its low 12 bits (R114, R115). -/
abbrev ImmIS (imm : Word) : Prop := (imm.extractLsb' 0 12).signExtend 32 = imm

/-- A B-immediate is the sign extension of its low 13 bits, and even (R116). -/
abbrev ImmB (imm : Word) : Prop := (imm.extractLsb' 0 13).signExtend 32 = imm ∧ imm.extractLsb' 0 1 = 0

/-- A U-immediate has its low 12 bits zero (R117). -/
abbrev ImmU (imm : Word) : Prop := imm.extractLsb' 0 12 = 0

/-- A J-immediate is the sign extension of its low 21 bits, and even (R118). -/
abbrev ImmJ (imm : Word) : Prop := (imm.extractLsb' 0 21).signExtend 32 = imm ∧ imm.extractLsb' 0 1 = 0

/-- SLLI's and SRLI's immediate is the shift amount, 0 to 31 (R124). -/
abbrev ImmShift (imm : Word) : Prop := imm.extractLsb' 5 27 = 0

/-- SRAI's immediate is `0x400` plus the shift amount (R124, R219). -/
abbrev ImmSrai (imm : Word) : Prop := imm.extractLsb' 5 27 = 0x20

/-- The instruction's immediate fits its format. -/
def Instr.wellFormed : Instr → Bool
  | .lui _ imm | .auipc _ imm => decide (ImmU imm)
  | .jal _ imm => decide (ImmJ imm)
  | .jalr _ _ imm => decide (ImmIS imm)
  | .beq _ _ imm | .bne _ _ imm | .blt _ _ imm | .bge _ _ imm | .bltu _ _ imm | .bgeu _ _ imm => decide (ImmB imm)
  | .lb _ _ imm | .lh _ _ imm | .lw _ _ imm | .lbu _ _ imm | .lhu _ _ imm => decide (ImmIS imm)
  | .sb _ _ imm | .sh _ _ imm | .sw _ _ imm => decide (ImmIS imm)
  | .addi _ _ imm | .slti _ _ imm | .sltiu _ _ imm | .xori _ _ imm | .ori _ _ imm | .andi _ _ imm => decide (ImmIS imm)
  | .slli _ _ imm | .srli _ _ imm => decide (ImmShift imm)
  | .srai _ _ imm => decide (ImmSrai imm)
  | .add .. | .sub .. | .sll .. | .slt .. | .sltu .. | .xor .. | .srl .. | .sra .. | .or .. | .and .. => true
  | .fence _ _ imm => decide (ImmIS imm)
  | .ecall | .ebreak => true

/-- `Instr.wellFormed` as a proposition. -/
abbrev Instr.WellFormed (i : Instr) : Prop := i.wellFormed = true

end Sys2Proof
end

