-- ==== Sys2Proof/Decode.lean ====
section
/-!
DEFINITION. The decoder (spec/30_encoding.md): fields and immediates, the decode function R133, the encoder written from
the format table R113, and the instruction list R150 as masks and patterns. The numeric opcode, funct3 and funct7 values
and the register positions are the spec's, which supplies them from general knowledge (UNVERIFIED, unsafe: log 10).
-/

namespace Sys2Proof

/-! ## Fields (R112) -/

/-- Bits 6 to 0. -/
def opcodeOf (w : Word) : BitVec 7 := w.extractLsb' 0 7

/-- Bits 11 to 7. -/
def rdOf (w : Word) : RegIdx := w.extractLsb' 7 5

/-- Bits 14 to 12. -/
def funct3Of (w : Word) : BitVec 3 := w.extractLsb' 12 3

/-- Bits 19 to 15. -/
def rs1Of (w : Word) : RegIdx := w.extractLsb' 15 5

/-- Bits 24 to 20. -/
def rs2Of (w : Word) : RegIdx := w.extractLsb' 20 5

/-- Bits 31 to 25. -/
def funct7Of (w : Word) : BitVec 7 := w.extractLsb' 25 7

/-! ## Immediates, each sign-extended to 32 bits (R114 to R119) -/

/-- `sext_32(w[31:20])` (R114). -/
def immI (w : Word) : Word := (w.extractLsb' 20 12).signExtend 32

/-- `sext_32(w[31:25] ++ w[11:7])` (R115). -/
def immS (w : Word) : Word := (w.extractLsb' 25 7 ++ w.extractLsb' 7 5 : BitVec 12).signExtend 32

/-- `sext_32(w[31] ++ w[7] ++ w[30:25] ++ w[11:8] ++ 0b0)` (R116). -/
def immB (w : Word) : Word :=
  (w.extractLsb' 31 1 ++ w.extractLsb' 7 1 ++ w.extractLsb' 25 6 ++ w.extractLsb' 8 4 ++ 0#1 : BitVec 13).signExtend 32

/-- `w[31:12] ++ 0x000` (R117). -/
def immU (w : Word) : Word := w.extractLsb' 12 20 ++ 0#12

/-- `sext_32(w[31] ++ w[19:12] ++ w[20] ++ w[30:21] ++ 0b0)` (R118). -/
def immJ (w : Word) : Word :=
  (w.extractLsb' 31 1 ++ w.extractLsb' 12 8 ++ w.extractLsb' 20 1 ++ w.extractLsb' 21 10 ++ 0#1 : BitVec 21).signExtend 32

/-! ## Decoding -/

/-- Why bytes are no instruction. `illegalInstruction` carries the whole word (R132); `truncated` is for fewer than the four
bytes an instruction has, which the driver's fetch never hands over (R79). -/
inductive DecodeError where
  | illegalInstruction (w : Word)
  | truncated
  deriving DecidableEq, Repr

/-- OP, selected by funct7 and funct3 (R123). -/
def decodeOp (f7 : BitVec 7) (f3 : BitVec 3) (rd rs1 rs2 : RegIdx) : Option Instr :=
  if f7 = 0b0000000 then
    if f3 = 0b000 then some (.add rd rs1 rs2)
    else if f3 = 0b001 then some (.sll rd rs1 rs2)
    else if f3 = 0b010 then some (.slt rd rs1 rs2)
    else if f3 = 0b011 then some (.sltu rd rs1 rs2)
    else if f3 = 0b100 then some (.xor rd rs1 rs2)
    else if f3 = 0b101 then some (.srl rd rs1 rs2)
    else if f3 = 0b110 then some (.or rd rs1 rs2)
    else some (.and rd rs1 rs2)
  else if f7 = 0b0100000 then
    if f3 = 0b000 then some (.sub rd rs1 rs2)
    else if f3 = 0b101 then some (.sra rd rs1 rs2)
    else none
  else none

/-- OP-IMM, selected by funct3 and, for the shifts, by bits 31 to 25 (R124). -/
def decodeOpImm (f7 : BitVec 7) (f3 : BitVec 3) (rd rs1 : RegIdx) (imm : Word) : Option Instr :=
  if f3 = 0b000 then some (.addi rd rs1 imm)
  else if f3 = 0b010 then some (.slti rd rs1 imm)
  else if f3 = 0b011 then some (.sltiu rd rs1 imm)
  else if f3 = 0b100 then some (.xori rd rs1 imm)
  else if f3 = 0b110 then some (.ori rd rs1 imm)
  else if f3 = 0b111 then some (.andi rd rs1 imm)
  else if f3 = 0b001 then
    if f7 = 0b0000000 then some (.slli rd rs1 imm) else none
  else
    if f7 = 0b0000000 then some (.srli rd rs1 imm)
    else if f7 = 0b0100000 then some (.srai rd rs1 imm)
    else none

/-- LOAD, selected by funct3 (R125). -/
def decodeLoad (f3 : BitVec 3) (rd rs1 : RegIdx) (imm : Word) : Option Instr :=
  if f3 = 0b000 then some (.lb rd rs1 imm)
  else if f3 = 0b001 then some (.lh rd rs1 imm)
  else if f3 = 0b010 then some (.lw rd rs1 imm)
  else if f3 = 0b100 then some (.lbu rd rs1 imm)
  else if f3 = 0b101 then some (.lhu rd rs1 imm)
  else none

/-- STORE, selected by funct3 (R126). -/
def decodeStore (f3 : BitVec 3) (rs1 rs2 : RegIdx) (imm : Word) : Option Instr :=
  if f3 = 0b000 then some (.sb rs1 rs2 imm)
  else if f3 = 0b001 then some (.sh rs1 rs2 imm)
  else if f3 = 0b010 then some (.sw rs1 rs2 imm)
  else none

/-- BRANCH, selected by funct3 (R127). -/
def decodeBranch (f3 : BitVec 3) (rs1 rs2 : RegIdx) (imm : Word) : Option Instr :=
  if f3 = 0b000 then some (.beq rs1 rs2 imm)
  else if f3 = 0b001 then some (.bne rs1 rs2 imm)
  else if f3 = 0b100 then some (.blt rs1 rs2 imm)
  else if f3 = 0b101 then some (.bge rs1 rs2 imm)
  else if f3 = 0b110 then some (.bltu rs1 rs2 imm)
  else if f3 = 0b111 then some (.bgeu rs1 rs2 imm)
  else none

/-- SYSTEM: the two whole words ECALL and EBREAK (R131). -/
def decodeSystem (w : Word) : Option Instr :=
  if w = 0x00000073 then some .ecall
  else if w = 0x00100073 then some .ebreak
  else none

/-- The selection by major opcode (R121, R122, R133); none for a word no rule selects. -/
def select (w : Word) : Option Instr :=
  let opc := opcodeOf w
  if opc = 0b0110111 then some (.lui (rdOf w) (immU w))
  else if opc = 0b0010111 then some (.auipc (rdOf w) (immU w))
  else if opc = 0b1101111 then some (.jal (rdOf w) (immJ w))
  else if opc = 0b1100111 then
    if funct3Of w = 0b000 then some (.jalr (rdOf w) (rs1Of w) (immI w)) else none
  else if opc = 0b1100011 then decodeBranch (funct3Of w) (rs1Of w) (rs2Of w) (immB w)
  else if opc = 0b0000011 then decodeLoad (funct3Of w) (rdOf w) (rs1Of w) (immI w)
  else if opc = 0b0100011 then decodeStore (funct3Of w) (rs1Of w) (rs2Of w) (immS w)
  else if opc = 0b0010011 then decodeOpImm (funct7Of w) (funct3Of w) (rdOf w) (rs1Of w) (immI w)
  else if opc = 0b0110011 then decodeOp (funct7Of w) (funct3Of w) (rdOf w) (rs1Of w) (rs2Of w)
  else if opc = 0b0001111 then
    if funct3Of w = 0b000 then some (.fence (rdOf w) (rs1Of w) (immI w)) else none
  else if opc = 0b1110011 then decodeSystem w
  else none

/-- The decoder: a pure, total function of the word (R110, R133); a word no rule selects is IllegalInstruction of that
whole word (R132). -/
def decode (w : Word) : Except DecodeError Instr :=
  match select w with
  | some i => .ok i
  | none => .error (.illegalInstruction w)

/-- A word's four bytes, the least significant at the lowest address (R73). -/
def wordBytes (w : Word) : List Byte :=
  [w.extractLsb' 0 8, w.extractLsb' 8 8, w.extractLsb' 16 8, w.extractLsb' 24 8]

/-- The decoder on bytes in address order: the first instruction and the bytes after it (R79, R111). -/
def decodeBytes : List Byte → Except DecodeError (Instr × List Byte)
  | b0 :: b1 :: b2 :: b3 :: rest =>
    match decode (b3 ++ b2 ++ b1 ++ b0) with
    | .ok i => .ok (i, rest)
    | .error e => .error e
  | _ => .error .truncated

/-! ## Encoding, from the format table R113 and the instruction list R150 -/

/-- R-type. -/
def encR (f7 : BitVec 7) (f3 : BitVec 3) (opc : BitVec 7) (rd rs1 rs2 : RegIdx) : Word :=
  f7 ++ rs2 ++ rs1 ++ f3 ++ rd ++ opc

/-- I-type. -/
def encI (f3 : BitVec 3) (opc : BitVec 7) (rd rs1 : RegIdx) (imm : Word) : Word :=
  imm.extractLsb' 0 12 ++ rs1 ++ f3 ++ rd ++ opc

/-- S-type. -/
def encS (f3 : BitVec 3) (opc : BitVec 7) (rs1 rs2 : RegIdx) (imm : Word) : Word :=
  imm.extractLsb' 5 7 ++ rs2 ++ rs1 ++ f3 ++ imm.extractLsb' 0 5 ++ opc

/-- B-type. -/
def encB (f3 : BitVec 3) (opc : BitVec 7) (rs1 rs2 : RegIdx) (imm : Word) : Word :=
  imm.extractLsb' 12 1 ++ imm.extractLsb' 5 6 ++ rs2 ++ rs1 ++ f3 ++
    imm.extractLsb' 1 4 ++ imm.extractLsb' 11 1 ++ opc

/-- U-type. -/
def encU (opc : BitVec 7) (rd : RegIdx) (imm : Word) : Word :=
  imm.extractLsb' 12 20 ++ rd ++ opc

/-- J-type. -/
def encJ (opc : BitVec 7) (rd : RegIdx) (imm : Word) : Word :=
  imm.extractLsb' 20 1 ++ imm.extractLsb' 1 10 ++ imm.extractLsb' 11 1 ++ imm.extractLsb' 12 8 ++ rd ++ opc

/-- The word of an instruction (meant for well-formed ones: an immediate that its format cannot spell is cut to the
bits the format has). -/
def encode : Instr → Word
  | .lui rd imm => encU 0b0110111 rd imm
  | .auipc rd imm => encU 0b0010111 rd imm
  | .jal rd imm => encJ 0b1101111 rd imm
  | .jalr rd rs1 imm => encI 0b000 0b1100111 rd rs1 imm
  | .beq rs1 rs2 imm => encB 0b000 0b1100011 rs1 rs2 imm
  | .bne rs1 rs2 imm => encB 0b001 0b1100011 rs1 rs2 imm
  | .blt rs1 rs2 imm => encB 0b100 0b1100011 rs1 rs2 imm
  | .bge rs1 rs2 imm => encB 0b101 0b1100011 rs1 rs2 imm
  | .bltu rs1 rs2 imm => encB 0b110 0b1100011 rs1 rs2 imm
  | .bgeu rs1 rs2 imm => encB 0b111 0b1100011 rs1 rs2 imm
  | .lb rd rs1 imm => encI 0b000 0b0000011 rd rs1 imm
  | .lh rd rs1 imm => encI 0b001 0b0000011 rd rs1 imm
  | .lw rd rs1 imm => encI 0b010 0b0000011 rd rs1 imm
  | .lbu rd rs1 imm => encI 0b100 0b0000011 rd rs1 imm
  | .lhu rd rs1 imm => encI 0b101 0b0000011 rd rs1 imm
  | .sb rs1 rs2 imm => encS 0b000 0b0100011 rs1 rs2 imm
  | .sh rs1 rs2 imm => encS 0b001 0b0100011 rs1 rs2 imm
  | .sw rs1 rs2 imm => encS 0b010 0b0100011 rs1 rs2 imm
  | .addi rd rs1 imm => encI 0b000 0b0010011 rd rs1 imm
  | .slti rd rs1 imm => encI 0b010 0b0010011 rd rs1 imm
  | .sltiu rd rs1 imm => encI 0b011 0b0010011 rd rs1 imm
  | .xori rd rs1 imm => encI 0b100 0b0010011 rd rs1 imm
  | .ori rd rs1 imm => encI 0b110 0b0010011 rd rs1 imm
  | .andi rd rs1 imm => encI 0b111 0b0010011 rd rs1 imm
  | .slli rd rs1 imm => encI 0b001 0b0010011 rd rs1 imm
  | .srli rd rs1 imm => encI 0b101 0b0010011 rd rs1 imm
  | .srai rd rs1 imm => encI 0b101 0b0010011 rd rs1 imm
  | .add rd rs1 rs2 => encR 0b0000000 0b000 0b0110011 rd rs1 rs2
  | .sub rd rs1 rs2 => encR 0b0100000 0b000 0b0110011 rd rs1 rs2
  | .sll rd rs1 rs2 => encR 0b0000000 0b001 0b0110011 rd rs1 rs2
  | .slt rd rs1 rs2 => encR 0b0000000 0b010 0b0110011 rd rs1 rs2
  | .sltu rd rs1 rs2 => encR 0b0000000 0b011 0b0110011 rd rs1 rs2
  | .xor rd rs1 rs2 => encR 0b0000000 0b100 0b0110011 rd rs1 rs2
  | .srl rd rs1 rs2 => encR 0b0000000 0b101 0b0110011 rd rs1 rs2
  | .sra rd rs1 rs2 => encR 0b0100000 0b101 0b0110011 rd rs1 rs2
  | .or rd rs1 rs2 => encR 0b0000000 0b110 0b0110011 rd rs1 rs2
  | .and rd rs1 rs2 => encR 0b0000000 0b111 0b0110011 rd rs1 rs2
  | .fence rd rs1 imm => encI 0b000 0b0001111 rd rs1 imm
  | .ecall => 0x00000073
  | .ebreak => 0x00100073

/-- An instruction's bytes in address order. -/
def encodeBytes (i : Instr) : List Byte := wordBytes (encode i)

/-! ## The instruction list (R150) -/

/-- One row: a word is this instruction exactly when `w &&& mask = pattern`. -/
structure OpcodeRow where
  mnemonic : String
  mask : Word
  pattern : Word
  deriving DecidableEq, Repr

/-- The row's mask and pattern select the word. -/
abbrev OpcodeRow.Matches (r : OpcodeRow) (w : Word) : Prop := w &&& r.mask = r.pattern

/-- The rows of R150 for the upper immediates and jumps instructions. -/
def opcodeRowsJumpUpper : List OpcodeRow := [
  { mnemonic := "LUI", mask := 0x0000007F, pattern := 0x00000037 },
  { mnemonic := "AUIPC", mask := 0x0000007F, pattern := 0x00000017 },
  { mnemonic := "JAL", mask := 0x0000007F, pattern := 0x0000006F },
  { mnemonic := "JALR", mask := 0x0000707F, pattern := 0x00000067 } ]

/-- The rows of R150 for the branches instructions. -/
def opcodeRowsBranch : List OpcodeRow := [
  { mnemonic := "BEQ", mask := 0x0000707F, pattern := 0x00000063 },
  { mnemonic := "BNE", mask := 0x0000707F, pattern := 0x00001063 },
  { mnemonic := "BLT", mask := 0x0000707F, pattern := 0x00004063 },
  { mnemonic := "BGE", mask := 0x0000707F, pattern := 0x00005063 },
  { mnemonic := "BLTU", mask := 0x0000707F, pattern := 0x00006063 },
  { mnemonic := "BGEU", mask := 0x0000707F, pattern := 0x00007063 } ]

/-- The rows of R150 for the loads and stores instructions. -/
def opcodeRowsMemory : List OpcodeRow := [
  { mnemonic := "LB", mask := 0x0000707F, pattern := 0x00000003 },
  { mnemonic := "LH", mask := 0x0000707F, pattern := 0x00001003 },
  { mnemonic := "LW", mask := 0x0000707F, pattern := 0x00002003 },
  { mnemonic := "LBU", mask := 0x0000707F, pattern := 0x00004003 },
  { mnemonic := "LHU", mask := 0x0000707F, pattern := 0x00005003 },
  { mnemonic := "SB", mask := 0x0000707F, pattern := 0x00000023 },
  { mnemonic := "SH", mask := 0x0000707F, pattern := 0x00001023 },
  { mnemonic := "SW", mask := 0x0000707F, pattern := 0x00002023 } ]

/-- The rows of R150 for the register-immediate instructions. -/
def opcodeRowsImm : List OpcodeRow := [
  { mnemonic := "ADDI", mask := 0x0000707F, pattern := 0x00000013 },
  { mnemonic := "SLTI", mask := 0x0000707F, pattern := 0x00002013 },
  { mnemonic := "SLTIU", mask := 0x0000707F, pattern := 0x00003013 },
  { mnemonic := "XORI", mask := 0x0000707F, pattern := 0x00004013 },
  { mnemonic := "ORI", mask := 0x0000707F, pattern := 0x00006013 },
  { mnemonic := "ANDI", mask := 0x0000707F, pattern := 0x00007013 },
  { mnemonic := "SLLI", mask := 0xFE00707F, pattern := 0x00001013 },
  { mnemonic := "SRLI", mask := 0xFE00707F, pattern := 0x00005013 },
  { mnemonic := "SRAI", mask := 0xFE00707F, pattern := 0x40005013 } ]

/-- The rows of R150 for the register-register instructions. -/
def opcodeRowsReg : List OpcodeRow := [
  { mnemonic := "ADD", mask := 0xFE00707F, pattern := 0x00000033 },
  { mnemonic := "SUB", mask := 0xFE00707F, pattern := 0x40000033 },
  { mnemonic := "SLL", mask := 0xFE00707F, pattern := 0x00001033 },
  { mnemonic := "SLT", mask := 0xFE00707F, pattern := 0x00002033 },
  { mnemonic := "SLTU", mask := 0xFE00707F, pattern := 0x00003033 },
  { mnemonic := "XOR", mask := 0xFE00707F, pattern := 0x00004033 },
  { mnemonic := "SRL", mask := 0xFE00707F, pattern := 0x00005033 },
  { mnemonic := "SRA", mask := 0xFE00707F, pattern := 0x40005033 },
  { mnemonic := "OR", mask := 0xFE00707F, pattern := 0x00006033 },
  { mnemonic := "AND", mask := 0xFE00707F, pattern := 0x00007033 } ]

/-- The rows of R150 for the fence and system instructions. -/
def opcodeRowsSystem : List OpcodeRow := [
  { mnemonic := "FENCE", mask := 0x0000707F, pattern := 0x0000000F },
  { mnemonic := "ECALL", mask := 0xFFFFFFFF, pattern := 0x00000073 },
  { mnemonic := "EBREAK", mask := 0xFFFFFFFF, pattern := 0x00100073 } ]

/-- The instruction list R150, one row per instruction. -/
def opcodeTable : List OpcodeRow :=
  opcodeRowsJumpUpper ++ opcodeRowsBranch ++ opcodeRowsMemory ++
  opcodeRowsImm ++ opcodeRowsReg ++ opcodeRowsSystem

/-! ## The host's question: what the decoder reads from a table row's word -/

/-- The instruction word whose low `nbits` bits are `w`'s and whose other bits are zero. -/
def tableWord (nbits w : Nat) : Word := BitVec.ofNat 32 (w % 2 ^ nbits)

/-- What the decoder reads from that word laid out in memory order (R73, R79). -/
def decodeTableWord (nbits w : Nat) : Option Instr :=
  match decodeBytes (wordBytes (tableWord nbits w)) with
  | .ok (i, _) => some i
  | .error _ => none

end Sys2Proof
end

