-- ==== Sys2Proof/Machine/Ops.lean ====
section
/-!
DEFINITION. The named operations over registers and memory, the four ways an instruction or the driver ends a step, and
the fetch (spec/10_state.md, 20_memory.md, 60_exceptions.md).
-/

namespace Sys2Proof.Machine

/-! ## The register file -/

/-- Where x<r> stands in `State.x`, for r not 0. -/
def regSlot (r : RegIdx) : Fin 31 := ⟨r.toNat - 1, by have := r.isLt; omega⟩

/-- The read port: x0 reads 0 (R31). -/
def State.readReg (s : State) (r : RegIdx) : Word :=
  if r = 0#5 then 0#32 else s.x[regSlot r]

/-- The write port: a write to x0 has no effect (R32). -/
def State.writeReg (s : State) (r : RegIdx) (v : Word) : State :=
  if r = 0#5 then s else { s with x := s.x.set (regSlot r) v }

/-! ## The other fields, one update each -/

/-- Write the pc. -/
def State.setPc (s : State) (p : Word) : State := { s with pc := p }

/-- Write the memory. -/
def State.setMem (s : State) (m : Memory) : State := { s with mem := m }

/-- Write the run state. -/
def State.setRun (s : State) (r : RunState) : State := { s with run := r }

/-! ## Memory, byte by byte -/

/-- The byte at an address. -/
def Memory.readByte : Memory → Nat → Byte
  | [], _ => Config.unlistedByte
  | (b, v) :: m, a => if a = b then v else Memory.readByte m a

/-- Write one byte, keeping the canonical form: a byte that an unlisted address reads as is not listed. -/
def Memory.writeByte : Memory → Nat → Byte → Memory
  | [], a, v => if v = Config.unlistedByte then [] else [(a, v)]
  | (b, w) :: m, a, v =>
    if a < b then
      if v = Config.unlistedByte then (b, w) :: m else (a, v) :: (b, w) :: m
    else if a = b then
      if v = Config.unlistedByte then m else (a, v) :: m
    else (b, w) :: Memory.writeByte m a v

/-- `bytes[a+n-1] ++ ... ++ bytes[a+1] ++ bytes[a]` (R76): little-endian (R73). -/
def Memory.readLE (m : Memory) (a : Nat) : (n : Nat) → BitVec (8 * n)
  | 0 => 0#0
  | n + 1 => Memory.readLE m (a + 1) n ++ Memory.readByte m a

/-- Byte `k` of a Word: bits `8k+7` to `8k`. -/
def byteOf (v : Word) (k : Nat) : Byte := v.extractLsb' (8 * k) 8

/-- `bytes[a+k] := v[8k+7 : 8k]` for `k` below `n` (R77): little-endian (R73). -/
def Memory.writeLE (m : Memory) (a : Nat) (v : Word) : (n : Nat) → Memory
  | 0 => m
  | n + 1 => Memory.writeByte (Memory.writeLE m a v n) (a + n) (byteOf v n)

/-! ## The bounds check and the two access primitives -/

/-- Every byte of an access of `n` bytes at `a` lies in the valid range, on integers without wrap (R72). -/
def inBounds (p : Params) (a : Word) (n : Nat) : Bool :=
  decide (p.memBase ≤ a.toNat) && decide (a.toNat + n ≤ p.memBase + p.memSize)

/-- MemRead (R76): the raw unsigned bits, or OutOfBounds. -/
def memRead (s : State) (a : Word) (w : Width) : Except Fault (BitVec (8 * w.bytes)) :=
  if inBounds s.params a w.bytes then .ok (s.mem.readLE a.toNat w.bytes)
  else .error (.outOfBounds a w)

/-- MemWrite (R77): the memory with the low bytes of `v` stored, or OutOfBounds with no byte written. -/
def memWrite (s : State) (a : Word) (w : Width) (v : Word) : Except Fault Memory :=
  if inBounds s.params a w.bytes then .ok (s.mem.writeLE a.toNat v w.bytes)
  else .error (.outOfBounds a w)

/-! ## How a step ends -/

/-- Continue(npc): the instruction's effects stand and the driver commits its NextPc (R38, R43). -/
def continueAt (npc : Word) (s : State) : Host.Outcome State Fault Refusal :=
  .next (s.setPc npc)

/-- Taking a fault (R331, R332, R340): the run state records it with the step's pc; nothing else is written anywhere.
There is no return from one (R341): the machine stays there (`stay`). -/
def raise (f : Fault) (s : State) : Host.Outcome State Fault Refusal :=
  .next (s.setRun (.faulted f s.pc))

/-- Taking the halt signal (R339): the run state records the code; nothing else is written. -/
def halt (code : Word) (s : State) : Host.Outcome State Fault Refusal :=
  .next (s.setRun (.halted code))

/-- A step in a terminal state changes nothing (R44). -/
def stay (s : State) : Host.Outcome State Fault Refusal :=
  .next s

/-! ## Fetch and decode -/

/-- The word at the pc: alignment is checked before bounds (R43, R79, R336, R335). -/
def fetchWord (s : State) : Except Fault Word :=
  if s.pc.extractLsb' 0 2 = 0 then
    match memRead s s.pc .word with
    | .ok v => .ok (v.setWidth 32)
    | .error f => .error f
  else .error (.misalignedFetch s.pc)

/-- The fault a decode failure of the fetched word surfaces as, carrying that word (R330, R334). -/
def Fault.ofDecodeError (w : Word) : DecodeError → Fault
  | .illegalInstruction w' => .illegalInstruction w'
  | .truncated => .illegalInstruction w

/-- The instruction at the pc, or the first fault that fetching and decoding it raises (R43, R338). -/
def fetchInstr (s : State) : Except Fault Instr :=
  match fetchWord s with
  | .error f => .error f
  | .ok w =>
    match decode w with
    | .ok i => .ok i
    | .error e => .error (Fault.ofDecodeError w e)

/-- The state with the word `w` stored where the next step fetches, and Running so that it does fetch; unchanged where the
pc is no address an instruction can be fetched from (log 8). -/
def State.placeWord (s : State) (w : Word) : State :=
  if s.pc.extractLsb' 0 2 = 0 ∧ inBounds s.params s.pc 4 then
    (s.setMem (s.mem.writeLE s.pc.toNat w 4)).setRun .running
  else s

end Sys2Proof.Machine
end

