-- ==== Sys2Proof/Machine/Operands.lean ====
section
/-!
DEFINITION. Every operand form (spec/40_alu.md R200, 41_load_store.md R240, 42_branch.md R270, 43_jump.md R290, R291) and
the shared shapes of the meanings. Registers and immediates come decoded; a source is read from the state the
instruction starts in, before any of its writes (10_state.md R41).
-/

namespace Sys2Proof.Machine

/-- The default NextPc, `pc + 4` modulo 2^32 (R38, R39). -/
def nextPc (s : State) : Word := s.pc + 4

/-- A load's or store's effective address, base plus offset modulo 2^32 (R240). -/
def effAddr (s : State) (rs1 : RegIdx) (imm : Word) : Word := s.readReg rs1 + imm

/-- A target relative to the pc of the instruction itself, modulo 2^32 (R270, R290, R301). -/
def pcRel (s : State) (imm : Word) : Word := s.pc + imm

/-- JALR's target: the sum with bit 0 cleared (R291). -/
def jalrTarget (s : State) (rs1 : RegIdx) (imm : Word) : Word := (s.readReg rs1 + imm) &&& 0xFFFFFFFE

/-- A shift operand's low 5 bits (R200). -/
def shiftAmount (v : Word) : BitVec 5 := v.extractLsb' 0 5

/-- `a << n`, zeros entering (R12). -/
def shiftLeft (a : Word) (n : BitVec 5) : Word := a <<< n.toNat

/-- `a >>u n`, zeros entering (R12). -/
def shiftRightU (a : Word) (n : BitVec 5) : Word := a >>> n.toNat

/-- `a >>s n`, copies of bit 31 entering (R12). -/
def shiftRightS (a : Word) (n : BitVec 5) : Word := a.sshiftRight n.toNat

/-- Write `v` to rd and go on at `pc + 4`. -/
def writeResult (rd : RegIdx) (v : Word) (s : State) : Host.Outcome State Fault Refusal :=
  continueAt (nextPc s) (s.writeReg rd v)

/-- A load (R240): the access is made and checked even for rd = x0, its raw bits extended by `ext`, or its fault taken. -/
def loadInto (rd : RegIdx) (ea : Word) (w : Width) (ext : BitVec (8 * w.bytes) → Word) (s : State) :
    Host.Outcome State Fault Refusal :=
  match memRead s ea w with
  | .ok v => writeResult rd (ext v) s
  | .error f => raise f s

/-- A store (R240): the low bytes of `v` are written, or the fault taken with none written. -/
def storeFrom (ea : Word) (w : Width) (v : Word) (s : State) : Host.Outcome State Fault Refusal :=
  match memWrite s ea w v with
  | .ok m => continueAt (nextPc s) (s.setMem m)
  | .error f => raise f s

/-- A branch (R270): to the target when the condition holds, else on. -/
def branchIf (c : Bool) (imm : Word) (s : State) : Host.Outcome State Fault Refusal :=
  continueAt (if c then pcRel s imm else nextPc s) s

/-- A jump (R290, R291): the target and the link are computed before rd is written. -/
def linkAndJump (rd : RegIdx) (target : Word) (s : State) : Host.Outcome State Fault Refusal :=
  continueAt target (s.writeReg rd (nextPc s))

end Sys2Proof.Machine
end

