-- ==== Sys2Proof/Machine/Alu.lean ====
section
/-!
DEFINITION. Integer register-register and register-immediate instructions (spec/40_alu.md R200 to R219).
-/

namespace Sys2Proof.Machine

/-- ADD (R201): add, modulo 2^32. -/
def execAdd (rd rs1 rs2 : RegIdx) (s : State) : Host.Outcome State Fault Refusal :=
  writeResult rd (s.readReg rs1 + s.readReg rs2) s

/-- SUB (R202): subtract, modulo 2^32. -/
def execSub (rd rs1 rs2 : RegIdx) (s : State) : Host.Outcome State Fault Refusal :=
  writeResult rd (s.readReg rs1 - s.readReg rs2) s

/-- SLL (R203): shift left logical by x[rs2][4:0]. -/
def execSll (rd rs1 rs2 : RegIdx) (s : State) : Host.Outcome State Fault Refusal :=
  writeResult rd (shiftLeft (s.readReg rs1) (shiftAmount (s.readReg rs2))) s

/-- SLT (R204): set if less than, signed. -/
def execSlt (rd rs1 rs2 : RegIdx) (s : State) : Host.Outcome State Fault Refusal :=
  writeResult rd (bool32 (condLtS (s.readReg rs1) (s.readReg rs2))) s

/-- SLTU (R205): set if less than, unsigned. -/
def execSltu (rd rs1 rs2 : RegIdx) (s : State) : Host.Outcome State Fault Refusal :=
  writeResult rd (bool32 (condLtU (s.readReg rs1) (s.readReg rs2))) s

/-- XOR (R206): bitwise exclusive or. -/
def execXor (rd rs1 rs2 : RegIdx) (s : State) : Host.Outcome State Fault Refusal :=
  writeResult rd (s.readReg rs1 ^^^ s.readReg rs2) s

/-- SRL (R207): shift right logical by x[rs2][4:0]. -/
def execSrl (rd rs1 rs2 : RegIdx) (s : State) : Host.Outcome State Fault Refusal :=
  writeResult rd (shiftRightU (s.readReg rs1) (shiftAmount (s.readReg rs2))) s

/-- SRA (R208): shift right arithmetic by x[rs2][4:0]. -/
def execSra (rd rs1 rs2 : RegIdx) (s : State) : Host.Outcome State Fault Refusal :=
  writeResult rd (shiftRightS (s.readReg rs1) (shiftAmount (s.readReg rs2))) s

/-- OR (R209): bitwise or. -/
def execOr (rd rs1 rs2 : RegIdx) (s : State) : Host.Outcome State Fault Refusal :=
  writeResult rd (s.readReg rs1 ||| s.readReg rs2) s

/-- AND (R210): bitwise and. -/
def execAnd (rd rs1 rs2 : RegIdx) (s : State) : Host.Outcome State Fault Refusal :=
  writeResult rd (s.readReg rs1 &&& s.readReg rs2) s

/-- ADDI (R211): add immediate, modulo 2^32. -/
def execAddi (rd rs1 : RegIdx) (imm : Word) (s : State) : Host.Outcome State Fault Refusal :=
  writeResult rd (s.readReg rs1 + imm) s

/-- SLTI (R212): set if less than immediate, signed. -/
def execSlti (rd rs1 : RegIdx) (imm : Word) (s : State) : Host.Outcome State Fault Refusal :=
  writeResult rd (bool32 (condLtS (s.readReg rs1) imm)) s

/-- SLTIU (R213): set if less than the sign-extended immediate, unsigned. -/
def execSltiu (rd rs1 : RegIdx) (imm : Word) (s : State) : Host.Outcome State Fault Refusal :=
  writeResult rd (bool32 (condLtU (s.readReg rs1) imm)) s

/-- XORI (R214): exclusive or immediate. -/
def execXori (rd rs1 : RegIdx) (imm : Word) (s : State) : Host.Outcome State Fault Refusal :=
  writeResult rd (s.readReg rs1 ^^^ imm) s

/-- ORI (R215): or immediate. -/
def execOri (rd rs1 : RegIdx) (imm : Word) (s : State) : Host.Outcome State Fault Refusal :=
  writeResult rd (s.readReg rs1 ||| imm) s

/-- ANDI (R216): and immediate. -/
def execAndi (rd rs1 : RegIdx) (imm : Word) (s : State) : Host.Outcome State Fault Refusal :=
  writeResult rd (s.readReg rs1 &&& imm) s

/-- SLLI (R217): shift left logical by imm[4:0]. -/
def execSlli (rd rs1 : RegIdx) (imm : Word) (s : State) : Host.Outcome State Fault Refusal :=
  writeResult rd (shiftLeft (s.readReg rs1) (shiftAmount imm)) s

/-- SRLI (R218): shift right logical by imm[4:0]. -/
def execSrli (rd rs1 : RegIdx) (imm : Word) (s : State) : Host.Outcome State Fault Refusal :=
  writeResult rd (shiftRightU (s.readReg rs1) (shiftAmount imm)) s

/-- SRAI (R219): shift right arithmetic by imm[4:0]; bit 10 of imm is no part of the amount. -/
def execSrai (rd rs1 : RegIdx) (imm : Word) (s : State) : Host.Outcome State Fault Refusal :=
  writeResult rd (shiftRightS (s.readReg rs1) (shiftAmount imm)) s

end Sys2Proof.Machine
end

