-- ==== Sys2Proof/Machine/Branch.lean ====
section
/-!
DEFINITION. Conditional branches (spec/42_branch.md R270 to R276). A target is not checked here: the next fetch checks it (R37).
-/

namespace Sys2Proof.Machine

/-- BEQ (R271): branch if equal. -/
def execBeq (rs1 rs2 : RegIdx) (imm : Word) (s : State) : Host.Outcome State Fault Refusal :=
  branchIf (condEq (s.readReg rs1) (s.readReg rs2)) imm s

/-- BNE (R272): branch if not equal. -/
def execBne (rs1 rs2 : RegIdx) (imm : Word) (s : State) : Host.Outcome State Fault Refusal :=
  branchIf (!condEq (s.readReg rs1) (s.readReg rs2)) imm s

/-- BLT (R273): branch if less than, signed. -/
def execBlt (rs1 rs2 : RegIdx) (imm : Word) (s : State) : Host.Outcome State Fault Refusal :=
  branchIf (condLtS (s.readReg rs1) (s.readReg rs2)) imm s

/-- BGE (R274): branch if not less than, signed. -/
def execBge (rs1 rs2 : RegIdx) (imm : Word) (s : State) : Host.Outcome State Fault Refusal :=
  branchIf (!condLtS (s.readReg rs1) (s.readReg rs2)) imm s

/-- BLTU (R275): branch if less than, unsigned. -/
def execBltu (rs1 rs2 : RegIdx) (imm : Word) (s : State) : Host.Outcome State Fault Refusal :=
  branchIf (condLtU (s.readReg rs1) (s.readReg rs2)) imm s

/-- BGEU (R276): branch if not less than, unsigned. -/
def execBgeu (rs1 rs2 : RegIdx) (imm : Word) (s : State) : Host.Outcome State Fault Refusal :=
  branchIf (!condLtU (s.readReg rs1) (s.readReg rs2)) imm s

end Sys2Proof.Machine
end

