-- ==== Sys2Proof/Machine/Jump.lean ====
section
/-!
DEFINITION. Unconditional jumps (spec/43_jump.md R290, R291). A target is not checked here: the next fetch checks it (R37).
-/

namespace Sys2Proof.Machine

/-- JAL (R290): jump and link. -/
def execJal (rd : RegIdx) (imm : Word) (s : State) : Host.Outcome State Fault Refusal :=
  linkAndJump rd (pcRel s imm) s

/-- JALR (R291): jump and link register; x[rs1] is read before rd is written. -/
def execJalr (rd rs1 : RegIdx) (imm : Word) (s : State) : Host.Outcome State Fault Refusal :=
  linkAndJump rd (jalrTarget s rs1 imm) s

end Sys2Proof.Machine
end

