-- ==== Sys2Proof/Machine/LoadStore.lean ====
section
/-!
DEFINITION. Loads and stores (spec/41_load_store.md R240 to R248).
-/

namespace Sys2Proof.Machine

/-- LB (R241): load byte, sign-extended. -/
def execLb (rd rs1 : RegIdx) (imm : Word) (s : State) : Host.Outcome State Fault Refusal :=
  loadInto rd (effAddr s rs1 imm) .byte (BitVec.signExtend 32) s

/-- LH (R242): load halfword, sign-extended. -/
def execLh (rd rs1 : RegIdx) (imm : Word) (s : State) : Host.Outcome State Fault Refusal :=
  loadInto rd (effAddr s rs1 imm) .half (BitVec.signExtend 32) s

/-- LW (R243): load word; its 32 bits need no extension. -/
def execLw (rd rs1 : RegIdx) (imm : Word) (s : State) : Host.Outcome State Fault Refusal :=
  loadInto rd (effAddr s rs1 imm) .word (BitVec.setWidth 32) s

/-- LBU (R244): load byte, zero-extended. -/
def execLbu (rd rs1 : RegIdx) (imm : Word) (s : State) : Host.Outcome State Fault Refusal :=
  loadInto rd (effAddr s rs1 imm) .byte (BitVec.setWidth 32) s

/-- LHU (R245): load halfword, zero-extended. -/
def execLhu (rd rs1 : RegIdx) (imm : Word) (s : State) : Host.Outcome State Fault Refusal :=
  loadInto rd (effAddr s rs1 imm) .half (BitVec.setWidth 32) s

/-- SB (R246): store byte x[rs2][7:0]. -/
def execSb (rs1 rs2 : RegIdx) (imm : Word) (s : State) : Host.Outcome State Fault Refusal :=
  storeFrom (effAddr s rs1 imm) .byte (s.readReg rs2) s

/-- SH (R247): store halfword x[rs2][15:0]. -/
def execSh (rs1 rs2 : RegIdx) (imm : Word) (s : State) : Host.Outcome State Fault Refusal :=
  storeFrom (effAddr s rs1 imm) .half (s.readReg rs2) s

/-- SW (R248): store word. -/
def execSw (rs1 rs2 : RegIdx) (imm : Word) (s : State) : Host.Outcome State Fault Refusal :=
  storeFrom (effAddr s rs1 imm) .word (s.readReg rs2) s

end Sys2Proof.Machine
end

