-- ==== Sys2Proof/Machine/System.lean ====
section
/-!
DEFINITION. System and fence instructions (spec/45_system.md R310 to R312).
-/

namespace Sys2Proof.Machine

/-- ECALL (R310): halt with the code in EXIT_REG, whatever else the registers hold; the pc stays. -/
def execEcall (s : State) : Host.Outcome State Fault Refusal :=
  halt (s.readReg s.params.exitReg) s

/-- EBREAK (R311): a no-op. -/
def execEbreak (s : State) : Host.Outcome State Fault Refusal :=
  continueAt (nextPc s) s

/-- FENCE (R312): a no-op; none of its fields is read (R136). -/
def execFence (_rd _rs1 : RegIdx) (_imm : Word) (s : State) : Host.Outcome State Fault Refusal :=
  continueAt (nextPc s) s

end Sys2Proof.Machine
end

