-- ==== Sys2Proof/Machine/UpperImm.lean ====
section
/-!
DEFINITION. Upper-immediate instructions (spec/44_upper_immediate.md R300, R301).
-/

namespace Sys2Proof.Machine

/-- LUI (R300): load upper immediate. -/
def execLui (rd : RegIdx) (imm : Word) (s : State) : Host.Outcome State Fault Refusal :=
  writeResult rd imm s

/-- AUIPC (R301): add upper immediate to the pc of the AUIPC itself. -/
def execAuipc (rd : RegIdx) (imm : Word) (s : State) : Host.Outcome State Fault Refusal :=
  writeResult rd (pcRel s imm) s

end Sys2Proof.Machine
end

