-- ==== Sys2Proof/Machine/Step.lean ====
section
/-!
DEFINITION. One step of the core (spec/10_state.md R43, R44) and the placing of an instruction for the host.
-/

namespace Sys2Proof.Machine

/-- A Running core fetches, decodes and executes one instruction, or takes the first fault on the way; a Halted or Faulted
one changes nothing. -/
def step (s : State) : Host.Outcome State Fault Refusal :=
  match s.run with
  | .running =>
    match fetchInstr s with
    | .ok i => exec i s
    | .error f => raise f s
  | .halted _ => stay s
  | .faulted _ _ => stay s

/-- The state with the instruction whose low `nbits` bits are `w` placed where `step` fetches next (log 8). -/
def State.withFetchWord (s : State) (nbits w : Nat) : State := s.placeWord (tableWord nbits w)

end Sys2Proof.Machine
end

