-- ==== Sys2Proof/Machine/Asm.lean ====
section
/-!
DEFINITION. The spec's reading aid (spec/10_state.md R34; 30_encoding.md R170, R171): register names, assembler text of an
instruction, and the expansions of the pseudo-instructions. No step uses any of it: the hardware consumes words (R5).
-/

namespace Sys2Proof

/-! ## Register names (R34) -/

/-- The index name `x<i>`. -/
def regName (r : RegIdx) : String := "x" ++ toString r.toNat

/-- The ABI names in index order. -/
def abiNames : List String :=
  ["zero", "ra", "sp", "gp", "tp", "t0", "t1", "t2", "s0", "s1", "a0", "a1", "a2", "a3", "a4", "a5"] ++
  ["a6", "a7", "s2", "s3", "s4", "s5", "s6", "s7", "s8", "s9", "s10", "s11", "t3", "t4", "t5", "t6"]

/-- The ABI name of a register; the hardware gives it no meaning (R34). -/
def abiName (r : RegIdx) : String := abiNames.getD r.toNat ""

/-! ## Assembler text (R170): upper-case mnemonics, index names, decimal immediates (DESIGN CHOICE, safe: log 13) -/

/-- A fence set from four bits, input, output, read, write from the top (R136, R170). -/
def fenceSet (b : BitVec 4) : String :=
  (if b.getLsbD 3 then "i" else "") ++ (if b.getLsbD 2 then "o" else "") ++
  (if b.getLsbD 1 then "r" else "") ++ (if b.getLsbD 0 then "w" else "")

/-- `OP rd, rs1, rs2`. -/
def asm3 (op : String) (a b c : RegIdx) : String :=
  op ++ " " ++ regName a ++ ", " ++ regName b ++ ", " ++ regName c

/-- `OP a, b, number`. -/
def asm2n (op : String) (a b : RegIdx) (n : Int) : String :=
  op ++ " " ++ regName a ++ ", " ++ regName b ++ ", " ++ toString n

/-- `OP a, number`. -/
def asm1n (op : String) (a : RegIdx) (n : Int) : String :=
  op ++ " " ++ regName a ++ ", " ++ toString n

/-- `OP a, number(base)`. -/
def asmMem (op : String) (a base : RegIdx) (n : Int) : String :=
  op ++ " " ++ regName a ++ ", " ++ toString n ++ "(" ++ regName base ++ ")"

/-- The assembler text of an instruction (R170). -/
def Instr.toAsm (i : Instr) : String :=
  match i with
  | .lui rd imm | .auipc rd imm => asm1n i.mnemonic rd (imm.toNat / 4096)
  | .jal rd imm => asm1n i.mnemonic rd imm.toInt
  | .jalr rd rs1 imm => asmMem i.mnemonic rd rs1 imm.toInt
  | .beq rs1 rs2 imm | .bne rs1 rs2 imm | .blt rs1 rs2 imm => asm2n i.mnemonic rs1 rs2 imm.toInt
  | .bge rs1 rs2 imm | .bltu rs1 rs2 imm | .bgeu rs1 rs2 imm => asm2n i.mnemonic rs1 rs2 imm.toInt
  | .lb rd rs1 imm | .lh rd rs1 imm | .lw rd rs1 imm | .lbu rd rs1 imm | .lhu rd rs1 imm =>
    asmMem i.mnemonic rd rs1 imm.toInt
  | .sb rs1 rs2 imm | .sh rs1 rs2 imm | .sw rs1 rs2 imm => asmMem i.mnemonic rs2 rs1 imm.toInt
  | .addi rd rs1 imm | .slti rd rs1 imm | .sltiu rd rs1 imm => asm2n i.mnemonic rd rs1 imm.toInt
  | .xori rd rs1 imm | .ori rd rs1 imm | .andi rd rs1 imm => asm2n i.mnemonic rd rs1 imm.toInt
  | .slli rd rs1 imm | .srli rd rs1 imm | .srai rd rs1 imm => asm2n i.mnemonic rd rs1 (imm.toNat % 32 : Nat)
  | .add a b c | .sub a b c | .sll a b c | .slt a b c | .sltu a b c => asm3 i.mnemonic a b c
  | .xor a b c | .srl a b c | .sra a b c | .or a b c | .and a b c => asm3 i.mnemonic a b c
  | .fence _ _ imm => i.mnemonic ++ " " ++ fenceSet (imm.extractLsb' 4 4) ++ ", " ++ fenceSet (imm.extractLsb' 0 4)
  | .ecall | .ebreak => i.mnemonic

/-! ## Pseudo-instructions (R171) -/

/-- `hi(v)`: `(v + 0x800) >> 12` modulo 2^20. -/
def hi20 (v : Word) : BitVec 20 := (v + 0x800).extractLsb' 12 20

/-- `hi(v) << 12`, the immediate LUI or AUIPC carries. -/
def hiImm (v : Word) : Word := hi20 v ++ 0#12

/-- `lo(v)`: `v - (hi(v) << 12)`. -/
def loImm (v : Word) : Word := v - hiImm v

/-- The pseudo-instructions. `off` is a byte offset and `d` is `sym - pc`. -/
inductive Pseudo where
  | nop
  | li (rd : RegIdx) (v : Word)
  | mv (rd rs : RegIdx)
  | not (rd rs : RegIdx)
  | neg (rd rs : RegIdx)
  | seqz (rd rs : RegIdx)
  | snez (rd rs : RegIdx)
  | sltz (rd rs : RegIdx)
  | sgtz (rd rs : RegIdx)
  | beqz (rs : RegIdx) (off : Word)
  | bnez (rs : RegIdx) (off : Word)
  | blez (rs : RegIdx) (off : Word)
  | bgez (rs : RegIdx) (off : Word)
  | bltz (rs : RegIdx) (off : Word)
  | bgtz (rs : RegIdx) (off : Word)
  | bgt (rs rt : RegIdx) (off : Word)
  | ble (rs rt : RegIdx) (off : Word)
  | bgtu (rs rt : RegIdx) (off : Word)
  | bleu (rs rt : RegIdx) (off : Word)
  | j (off : Word)
  | jal (off : Word)
  | jr (rs : RegIdx)
  | jalr (rs : RegIdx)
  | ret
  | call (off : Word)
  | tail (off : Word)
  | la (rd : RegIdx) (d : Word)
  | lbSym (rd : RegIdx) (d : Word)
  | lhSym (rd : RegIdx) (d : Word)
  | lwSym (rd : RegIdx) (d : Word)
  | lbuSym (rd : RegIdx) (d : Word)
  | lhuSym (rd : RegIdx) (d : Word)
  | sbSym (rs rt : RegIdx) (d : Word)
  | shSym (rs rt : RegIdx) (d : Word)
  | swSym (rs rt : RegIdx) (d : Word)
  | fence
  deriving DecidableEq, Repr

/-- The instructions a pseudo-instruction stands for. -/
def Pseudo.expand : Pseudo → List Instr
  | .nop => [.addi 0 0 0]
  | .li rd v =>
    if -2048 ≤ v.toInt ∧ v.toInt ≤ 2047 then [.addi rd 0 v]
    else if loImm v = 0 then [.lui rd (hiImm v)]
    else [.lui rd (hiImm v), .addi rd rd (loImm v)]
  | .mv rd rs => [.addi rd rs 0]
  | .not rd rs => [.xori rd rs (-1)]
  | .neg rd rs => [.sub rd 0 rs]
  | .seqz rd rs => [.sltiu rd rs 1]
  | .snez rd rs => [.sltu rd 0 rs]
  | .sltz rd rs => [.slt rd rs 0]
  | .sgtz rd rs => [.slt rd 0 rs]
  | .beqz rs off => [.beq rs 0 off]
  | .bnez rs off => [.bne rs 0 off]
  | .blez rs off => [.bge 0 rs off]
  | .bgez rs off => [.bge rs 0 off]
  | .bltz rs off => [.blt rs 0 off]
  | .bgtz rs off => [.blt 0 rs off]
  | .bgt rs rt off => [.blt rt rs off]
  | .ble rs rt off => [.bge rt rs off]
  | .bgtu rs rt off => [.bltu rt rs off]
  | .bleu rs rt off => [.bgeu rt rs off]
  | .j off => [.jal 0 off]
  | .jal off => [.jal 1 off]
  | .jr rs => [.jalr 0 rs 0]
  | .jalr rs => [.jalr 1 rs 0]
  | .ret => [.jalr 0 1 0]
  | .call off => [.auipc 1 (hiImm off), .jalr 1 1 (loImm off)]
  | .tail off => [.auipc 6 (hiImm off), .jalr 0 6 (loImm off)]
  | .la rd d => [.auipc rd (hiImm d), .addi rd rd (loImm d)]
  | .lbSym rd d => [.auipc rd (hiImm d), .lb rd rd (loImm d)]
  | .lhSym rd d => [.auipc rd (hiImm d), .lh rd rd (loImm d)]
  | .lwSym rd d => [.auipc rd (hiImm d), .lw rd rd (loImm d)]
  | .lbuSym rd d => [.auipc rd (hiImm d), .lbu rd rd (loImm d)]
  | .lhuSym rd d => [.auipc rd (hiImm d), .lhu rd rd (loImm d)]
  | .sbSym rs rt d => [.auipc rt (hiImm d), .sb rt rs (loImm d)]
  | .shSym rs rt d => [.auipc rt (hiImm d), .sh rt rs (loImm d)]
  | .swSym rs rt d => [.auipc rt (hiImm d), .sw rt rs (loImm d)]
  | .fence => [.fence 0 0 0xFF]

end Sys2Proof
end

