-- ==== Sys2Proof/Machine/Driver.lean ====
section
/-!
DEFINITION. The host's interface to the core (spec/70_reset_and_hazards.md R377, R378, R380): what `step()` and `run()`
report. `Sys2Proof.Machine.step` is the transition itself; nothing here changes the state in another way.
-/

namespace Sys2Proof.Machine

/-- What one `step()` reports (R377). -/
inductive StepResult where
  | continued (nextPc : Word)
  | halt (code : Word)
  | fault (fault : Fault) (pc : Word)
  deriving DecidableEq, Repr

/-- What a run that ended reports (R377). -/
inductive RunResult where
  | halted (code : Word)
  | faulted (fault : Fault) (pc : Word)
  deriving DecidableEq, Repr

/-- The report a run state stands for, with the pc of a core that is still Running (R377). -/
def State.report (s : State) : StepResult :=
  match s.run with
  | .running => .continued s.pc
  | .halted c => .halt c
  | .faulted f p => .fault f p

/-- `step()`: the next state and its report; a terminal core reports its terminal result again (R377, R44). The last two
lines stand for outcomes no step gives. -/
def hostStep (s : State) : State × StepResult :=
  match step s with
  | .next t => (t, t.report)
  | .fault f => (s, .fault f s.pc)
  | .refused _ => (s, s.report)

/-- `run()` under the host's budget of `n` steps, after which the host stops it between two steps (R378); a Running result
is a run that has not ended (R380). -/
def runFor : Nat → State → State
  | 0, s => s
  | n + 1, s =>
    match s.run with
    | .running => runFor n (hostStep s).1
    | .halted _ => s
    | .faulted _ _ => s

/-- The result of a run that ended in this state, none while it is Running (R380). -/
def State.runResult (s : State) : Option RunResult :=
  match s.run with
  | .running => none
  | .halted c => some (.halted c)
  | .faulted f p => some (.faulted f p)

end Sys2Proof.Machine
end

