-- ==== Sys2Proof/Safety.lean ====
section
/-!
DEFINITION. The terms claims about the core are stated in: what an instruction may change, which memory access it makes,
the NextPc table R38, and the invariant of the whole machine.
-/

namespace Sys2Proof.Machine

/-! ## Effects -/

/-- From `s` to `t` nothing changes but x<rd>, which becomes `v` unless rd is x0, and the pc, which becomes `npc`. -/
def WritesOnly (s t : State) (rd : RegIdx) (v npc : Word) : Prop :=
  (∀ r, t.readReg r = if r = rd ∧ rd ≠ 0#5 then v else s.readReg r) ∧
  t.pc = npc ∧ t.mem = s.mem ∧ (∀ a, t.mem.readByte a = s.mem.readByte a) ∧ t.run = s.run ∧ t.params = s.params

/-- From `s` to `t` nothing changes but the pc, which becomes `npc`. -/
def MovesOnly (s t : State) (npc : Word) : Prop :=
  (∀ r, t.readReg r = s.readReg r) ∧
  t.pc = npc ∧ t.mem = s.mem ∧ (∀ a, t.mem.readByte a = s.mem.readByte a) ∧ t.run = s.run ∧ t.params = s.params

/-- From `s` to `t` nothing changes but the `n` bytes at `a`, which become the low bytes of `v`, the least significant at
the lowest address, and the pc, which becomes `npc`. -/
def StoresOnly (s t : State) (a n : Nat) (v npc : Word) : Prop :=
  (∀ r, t.readReg r = s.readReg r) ∧
  t.pc = npc ∧ t.run = s.run ∧ t.params = s.params ∧
  (∀ b, a ≤ b → b < a + n → t.mem.readByte b = BitVec.ofNat 8 (v.toNat / 256 ^ (b - a))) ∧
  (∀ b, b < a ∨ a + n ≤ b → t.mem.readByte b = s.mem.readByte b)

/-- An access of `n` bytes at `a` lies in the valid range (R72), in plain arithmetic. -/
def InRange (p : Params) (a : Word) (n : Nat) : Prop :=
  p.memBase ≤ a.toNat ∧ a.toNat + n ≤ p.memBase + p.memSize

/-! ## The access an instruction makes -/

/-- The address and width of the store an instruction makes, none for one that stores nothing (R246 to R248). -/
def storeAccess (i : Instr) (s : State) : Option (Word × Width) :=
  match i with
  | .sb rs1 _ imm => some (effAddr s rs1 imm, .byte)
  | .sh rs1 _ imm => some (effAddr s rs1 imm, .half)
  | .sw rs1 _ imm => some (effAddr s rs1 imm, .word)
  | .lb .. | .lh .. | .lw .. | .lbu .. | .lhu .. => none
  | .beq .. | .bne .. | .blt .. | .bge .. | .bltu .. | .bgeu .. => none
  | .addi .. | .slti .. | .sltiu .. | .xori .. | .ori .. | .andi .. | .slli .. | .srli .. | .srai .. => none
  | .add .. | .sub .. | .sll .. | .slt .. | .sltu .. | .xor .. | .srl .. | .sra .. | .or .. | .and .. => none
  | .lui .. | .auipc .. | .jal .. | .jalr .. | .fence .. | .ecall | .ebreak => none

/-- The address and width of the load an instruction makes, none for one that loads nothing (R241 to R245). -/
def loadAccess (i : Instr) (s : State) : Option (Word × Width) :=
  match i with
  | .lb _ rs1 imm | .lbu _ rs1 imm => some (effAddr s rs1 imm, .byte)
  | .lh _ rs1 imm | .lhu _ rs1 imm => some (effAddr s rs1 imm, .half)
  | .lw _ rs1 imm => some (effAddr s rs1 imm, .word)
  | .sb .. | .sh .. | .sw .. => none
  | .beq .. | .bne .. | .blt .. | .bge .. | .bltu .. | .bgeu .. => none
  | .addi .. | .slti .. | .sltiu .. | .xori .. | .ori .. | .andi .. | .slli .. | .srli .. | .srai .. => none
  | .add .. | .sub .. | .sll .. | .slt .. | .sltu .. | .xor .. | .srl .. | .sra .. | .or .. | .and .. => none
  | .lui .. | .auipc .. | .jal .. | .jalr .. | .fence .. | .ecall | .ebreak => none

/-- The data access an instruction makes, if any. -/
def dataAccess (i : Instr) (s : State) : Option (Word × Width) :=
  match storeAccess i s with
  | some x => some x
  | none => loadAccess i s

/-! ## NextPc -/

/-- The NextPc table R38, from the registers and the pc alone; for ECALL, which has none, the pc it keeps (R310). -/
def nextPcTable (i : Instr) (s : State) : Word :=
  match i with
  | .jal _ imm => s.pc + imm
  | .jalr _ rs1 imm => (s.readReg rs1 + imm) &&& ~~~1#32
  | .beq rs1 rs2 imm => if s.readReg rs1 = s.readReg rs2 then s.pc + imm else s.pc + 4
  | .bne rs1 rs2 imm => if s.readReg rs1 ≠ s.readReg rs2 then s.pc + imm else s.pc + 4
  | .blt rs1 rs2 imm => if (s.readReg rs1).toInt < (s.readReg rs2).toInt then s.pc + imm else s.pc + 4
  | .bge rs1 rs2 imm => if (s.readReg rs2).toInt ≤ (s.readReg rs1).toInt then s.pc + imm else s.pc + 4
  | .bltu rs1 rs2 imm => if (s.readReg rs1).toNat < (s.readReg rs2).toNat then s.pc + imm else s.pc + 4
  | .bgeu rs1 rs2 imm => if (s.readReg rs2).toNat ≤ (s.readReg rs1).toNat then s.pc + imm else s.pc + 4
  | .ecall => s.pc
  | .lui .. | .auipc .. | .fence .. | .ebreak => s.pc + 4
  | .lb .. | .lh .. | .lw .. | .lbu .. | .lhu .. | .sb .. | .sh .. | .sw .. => s.pc + 4
  | .addi .. | .slti .. | .sltiu .. | .xori .. | .ori .. | .andi .. | .slli .. | .srli .. | .srai .. => s.pc + 4
  | .add .. | .sub .. | .sll .. | .slt .. | .sltu .. | .xor .. | .srl .. | .sra .. | .or .. | .and .. => s.pc + 4

/-! ## The invariant -/

/-- Every byte the memory lists is in the valid range: no other address holds one (R71). -/
abbrev Memory.Inside (m : Memory) (p : Params) : Prop :=
  ∀ c ∈ m, p.memBase ≤ c.1 ∧ c.1 < p.memBase + p.memSize

/-- What a terminal run state records is what the state it left behind shows (R332, R333, R339): a halt code is
x[EXIT_REG] with ECALL at the pc, and a fault carries the pc and is the one that fetching and decoding there raises, or
the OutOfBounds of the access the instruction there makes. -/
def State.RecordAgrees (s : State) : Prop :=
  match s.run with
  | .running => True
  | .halted c => fetchInstr s = .ok .ecall ∧ c = s.readReg s.params.exitReg
  | .faulted f p =>
    p = s.pc ∧
    (fetchInstr s = .error f ∨
      ∃ i a w, fetchInstr s = .ok i ∧ dataAccess i s = some (a, w) ∧ ¬ InRange s.params a w.bytes ∧
        f = .outOfBounds a w)

/-- The invariant of the machine: the range lies in the address space, memory is in its one form and holds nothing outside
the range, and a terminal state's record agrees with it. -/
structure State.Inv (s : State) : Prop where
  range : s.params.wf
  canonical : s.mem.wf
  inside : s.mem.Inside s.params
  record : s.RecordAgrees

/-- The loader's duty at the interface (R374): the range is one, the memory is in its form, the image lies in the range.
The core checks none of it. -/
def Launch.imageFits (l : Launch) : Prop :=
  l.params.wf ∧ l.mem.wf ∧ l.mem.Inside l.params

/-- A run of this state has not faulted. -/
def State.Safe (s : State) : Prop := ∀ f p, s.run ≠ .faulted f p

end Sys2Proof.Machine
end

