-- ==== Sys2Proof/Certificates/Slice0/Obligations.lean ====
section
/-!
DEFINITION. The statements for the provers. Each is about every state, also states no run reaches; where only a memory in
its one form will do, `Memory.wf` is a premise, and `EveryStepKeepsTheInvariant` says that every step keeps it.
-/

open Sys2Proof Sys2Proof.Machine

/-! ## Encoding -/

/-- Words written out in the spec decode as the spec says: 95_test_vectors.md E1 (ADD, ADDI), V-L9 (LW), V-J4 (JALR), V-U3
(AUIPC) and 2.7 (the others), ECALL and EBREAK also in 30_encoding.md R131, and the two illegal words in R134. -/
def Obligations.SpecWordsDecodeAsWritten : Prop :=
  decode 0x002081B3 = .ok (.add 3 1 2) ∧ decode 0x00500093 = .ok (.addi 1 0 5) ∧
  decode 0x41F0D193 = .ok (.srai 3 1 0x41F) ∧ decode 0xFFC0A183 = .ok (.lw 3 1 0xFFFFFFFC) ∧
  decode 0xFE20AFA3 = .ok (.sw 1 2 0xFFFFFFFF) ∧ decode 0x80000063 = .ok (.beq 0 0 0xFFFFF000) ∧
  decode 0x7FFFF0EF = .ok (.jal 1 0x000FFFFE) ∧ decode 0x000280E7 = .ok (.jalr 1 5 0) ∧
  decode 0x12345037 = .ok (.lui 0 0x12345000) ∧ decode 0x00001197 = .ok (.auipc 3 0x00001000) ∧
  decode 0x8330000F = .ok (.fence 0 0 0xFFFFF833) ∧
  decode 0x00000073 = .ok .ecall ∧ decode 0x00100073 = .ok .ebreak ∧
  decode 0xFFFFFFFF = .error (.illegalInstruction 0xFFFFFFFF) ∧
  decode 0x00000000 = .error (.illegalInstruction 0x00000000)

/-- Every well-formed instruction, with every operand its format can spell, decodes back from its word. -/
def Obligations.DecodeOfEncodeIsTheInstruction : Prop :=
  ∀ i : Instr, i.WellFormed → decode (encode i) = .ok i

/-- Every word that decodes is the word of the well-formed instruction it decodes to: no bit of it is dropped. -/
def Obligations.EncodeOfDecodeIsTheWord : Prop :=
  ∀ (w : Word) (i : Instr), decode w = .ok i → i.WellFormed ∧ encode i = w

/-- The decode function R133 and the instruction list R150 select the same instruction for every word. -/
def Obligations.DecodeAgreesWithTheInstructionList : Prop :=
  ∀ w : Word,
    (∀ r ∈ opcodeTable, r.Matches w → ∃ i, decode w = .ok i ∧ i.mnemonic = r.mnemonic) ∧
    (∀ i, decode w = .ok i → ∃ r ∈ opcodeTable, r.mnemonic = i.mnemonic ∧ r.Matches w)

/-- No word is two instructions of the list R150. -/
def Obligations.NoWordMatchesTwoRows : Prop :=
  ∀ (w : Word) (r r' : OpcodeRow), r ∈ opcodeTable → r' ∈ opcodeTable → r.Matches w → r'.Matches w → r = r'

/-- A word that decodes to nothing is IllegalInstruction of that whole word, and every word whose low two bits are not
`0b11` is one (R111's and R132's inferences, the spec's own). -/
def Obligations.UndecodedWordsAreIllegalByName : Prop :=
  (∀ (w : Word) (e : DecodeError), decode w = .error e → e = .illegalInstruction w) ∧
  (∀ w : Word, w.toNat % 4 ≠ 3 → decode w = .error (.illegalInstruction w))

/-- The I-, S- and U-immediates of every word, in plain arithmetic on the word (R114, R115, R117). -/
def Obligations.ImmediatesOfIAndSAndUAreTheirBits : Prop :=
  ∀ w : Word,
    (immI w).toInt = Int.bmod (w.toNat / 2 ^ 20) 4096 ∧ -2048 ≤ (immI w).toInt ∧ (immI w).toInt ≤ 2047 ∧
    (immS w).toInt = Int.bmod (w.toNat / 2 ^ 25 * 32 + w.toNat / 2 ^ 7 % 32) 4096 ∧
    -2048 ≤ (immS w).toInt ∧ (immS w).toInt ≤ 2047 ∧
    (immU w).toNat = w.toNat / 4096 * 4096

/-- The B- and J-immediates of every word, in plain arithmetic on the word (R116, R118: the spec reads the source's bit
order as a concatenation from general knowledge, log 10). -/
def Obligations.ImmediatesOfBAndJAreTheirBits : Prop :=
  ∀ w : Word,
    (immB w).toInt = Int.bmod (w.toNat / 2 ^ 31 * 4096 + w.toNat / 2 ^ 7 % 2 * 2048 +
      w.toNat / 2 ^ 25 % 64 * 32 + w.toNat / 2 ^ 8 % 16 * 2) 8192 ∧
    -4096 ≤ (immB w).toInt ∧ (immB w).toInt ≤ 4094 ∧ (immB w).toInt % 2 = 0 ∧
    (immJ w).toInt = Int.bmod (w.toNat / 2 ^ 31 * 1048576 + w.toNat / 2 ^ 12 % 256 * 4096 +
      w.toNat / 2 ^ 20 % 2 * 2048 + w.toNat / 2 ^ 21 % 1024 * 2) 2097152 ∧
    -1048576 ≤ (immJ w).toInt ∧ (immJ w).toInt ≤ 1048574 ∧ (immJ w).toInt % 2 = 0

/-- LUI, AUIPC and JAL have no funct field: every word with one of their opcodes is that instruction (R129). -/
def Obligations.LuiAuipcJalTakeEveryWord : Prop :=
  ∀ w : Word,
    (w.toNat % 128 = 0x37 → decode w = .ok (.lui (rdOf w) (immU w))) ∧
    (w.toNat % 128 = 0x17 → decode w = .ok (.auipc (rdOf w) (immU w))) ∧
    (w.toNat % 128 = 0x6F → decode w = .ok (.jal (rdOf w) (immJ w)))

/-- JALR and FENCE need funct3 0, FENCE reads no other field, and only two SYSTEM words decode (R128, R130, R131: the
spec's decisions D13, D10 and D11, log 9). -/
def Obligations.JalrFenceAndSystemWordsAreStrict : Prop :=
  ∀ w : Word,
    (w.toNat % 128 = 0x67 → decode w =
      if w.toNat / 2 ^ 12 % 8 = 0 then .ok (.jalr (rdOf w) (rs1Of w) (immI w)) else .error (.illegalInstruction w)) ∧
    (w.toNat % 128 = 0x0F → decode w =
      if w.toNat / 2 ^ 12 % 8 = 0 then .ok (.fence (rdOf w) (rs1Of w) (immI w)) else .error (.illegalInstruction w)) ∧
    (w.toNat % 128 = 0x73 → decode w =
      if w = 0x00000073 then .ok .ecall else if w = 0x00100073 then .ok .ebreak
      else .error (.illegalInstruction w))

/-! ## The register file and memory -/

/-- The register ports: x0 reads 0 and discards writes; any other register reads what was last written to it, and after
launch its launch value (R31, R32). -/
def Obligations.RegisterPortsReadTheLastWrite : Prop :=
  (∀ s : State, s.readReg 0 = 0) ∧
  (∀ (s : State) (v : Word), s.writeReg 0 v = s) ∧
  (∀ (s : State) (r q : RegIdx) (v : Word), r ≠ 0#5 → (s.writeReg r v).readReg q = if q = r then v else s.readReg q) ∧
  (∀ (l : Launch) (r : RegIdx) (h : r.toNat - 1 < 31), r ≠ 0#5 → (State.launch l).readReg r = l.gpr[r.toNat - 1])

/-- MemRead gives, byte by byte from the lowest address, the bytes of memory, or OutOfBounds of the whole access (R72 and
R76: little-endian and no wrap are the spec's decisions D1 and D3, log 9). -/
def Obligations.MemReadGivesTheBytesInOrder : Prop :=
  ∀ (s : State) (a : Word) (w : Width),
    (InRange s.params a w.bytes →
      ∃ v, memRead s a w = .ok v ∧ ∀ k < w.bytes, v.extractLsb' (8 * k) 8 = s.mem.readByte (a.toNat + k)) ∧
    (¬ InRange s.params a w.bytes → memRead s a w = .error (.outOfBounds a w))

/-- MemWrite writes exactly the bytes of the access, all or none (R77; byte order and bounds as in log 9). -/
def Obligations.MemWriteWritesExactlyItsBytes : Prop :=
  ∀ (s : State) (a : Word) (w : Width) (v : Word), s.mem.wf →
    (InRange s.params a w.bytes →
      ∃ m, memWrite s a w v = .ok m ∧ m.wf ∧
        (∀ k < w.bytes, m.readByte (a.toNat + k) = BitVec.ofNat 8 (v.toNat / 256 ^ k)) ∧
        (∀ b, b < a.toNat ∨ a.toNat + w.bytes ≤ b → m.readByte b = s.mem.readByte b)) ∧
    (¬ InRange s.params a w.bytes → memWrite s a w v = .error (.outOfBounds a w))

/-- An access in bounds never passes the top of the address space, and one that would is out of bounds as a whole
(R72: the spec's decision D3, log 9). -/
def Obligations.AccessesNeverWrap : Prop :=
  ∀ (p : Params) (a : Word) (n : Nat), p.wf →
    (inBounds p a n = true → a.toNat + n ≤ 2 ^ 32) ∧ (2 ^ 32 < a.toNat + n → inBounds p a n = false)

/-- A word stored and loaded back from the same base and offset is the register stored, for every value and alignment
(95_test_vectors.md E4; R243, R248). -/
def Obligations.StoredWordLoadsBack : Prop :=
  ∀ (s : State) (rd rs1 rs2 : RegIdx) (imm : Word), s.mem.wf → InRange s.params (effAddr s rs1 imm) 4 → rd ≠ 0#5 →
    ∃ t u, exec (.sw rs1 rs2 imm) s = .next t ∧ exec (.lw rd rs1 imm) t = .next u ∧
      u.readReg rd = s.readReg rs2 ∧ ∀ r, r ≠ rd → u.readReg r = s.readReg r

/-! ## Integer instructions. The last clauses give the encoding each rule names; its fixed fields are log 10's. -/

/-- ADD, SUB and ADDI (R201, R202, R211), modulo 2^32. -/
def Obligations.AddSubAddiResults : Prop :=
  ∀ (s : State) (rd rs1 rs2 : RegIdx) (imm : Word),
    (∃ t, exec (.add rd rs1 rs2) s = .next t ∧
      WritesOnly s t rd (BitVec.ofNat 32 ((s.readReg rs1).toNat + (s.readReg rs2).toNat)) (s.pc + 4)) ∧
    (∃ t, exec (.sub rd rs1 rs2) s = .next t ∧
      WritesOnly s t rd (BitVec.ofInt 32 ((s.readReg rs1).toNat - (s.readReg rs2).toNat)) (s.pc + 4)) ∧
    (∃ t, exec (.addi rd rs1 imm) s = .next t ∧
      WritesOnly s t rd (BitVec.ofInt 32 ((s.readReg rs1).toInt + imm.toInt)) (s.pc + 4)) ∧
    decode (encR 0b0000000 0b000 0b0110011 rd rs1 rs2) = .ok (.add rd rs1 rs2) ∧
    decode (encR 0b0100000 0b000 0b0110011 rd rs1 rs2) = .ok (.sub rd rs1 rs2) ∧
    (∀ w, w = encI 0b000 0b0010011 rd rs1 imm → imm = immI w → decode w = .ok (.addi rd rs1 imm))

/-- XOR, OR, AND and their immediate forms, bit by bit (R206, R209, R210, R214, R215, R216). -/
def Obligations.BitwiseResults : Prop :=
  ∀ (s : State) (rd rs1 rs2 : RegIdx) (imm : Word),
    (∃ t v, exec (.xor rd rs1 rs2) s = .next t ∧ WritesOnly s t rd v (s.pc + 4) ∧
      ∀ k < 32, v.getLsbD k = ((s.readReg rs1).getLsbD k != (s.readReg rs2).getLsbD k)) ∧
    (∃ t v, exec (.or rd rs1 rs2) s = .next t ∧ WritesOnly s t rd v (s.pc + 4) ∧
      ∀ k < 32, v.getLsbD k = ((s.readReg rs1).getLsbD k || (s.readReg rs2).getLsbD k)) ∧
    (∃ t v, exec (.and rd rs1 rs2) s = .next t ∧ WritesOnly s t rd v (s.pc + 4) ∧
      ∀ k < 32, v.getLsbD k = ((s.readReg rs1).getLsbD k && (s.readReg rs2).getLsbD k)) ∧
    (∃ t v, exec (.xori rd rs1 imm) s = .next t ∧ WritesOnly s t rd v (s.pc + 4) ∧
      ∀ k < 32, v.getLsbD k = ((s.readReg rs1).getLsbD k != imm.getLsbD k)) ∧
    (∃ t v, exec (.ori rd rs1 imm) s = .next t ∧ WritesOnly s t rd v (s.pc + 4) ∧
      ∀ k < 32, v.getLsbD k = ((s.readReg rs1).getLsbD k || imm.getLsbD k)) ∧
    (∃ t v, exec (.andi rd rs1 imm) s = .next t ∧ WritesOnly s t rd v (s.pc + 4) ∧
      ∀ k < 32, v.getLsbD k = ((s.readReg rs1).getLsbD k && imm.getLsbD k)) ∧
    decode (encR 0b0000000 0b100 0b0110011 rd rs1 rs2) = .ok (.xor rd rs1 rs2) ∧
    decode (encR 0b0000000 0b110 0b0110011 rd rs1 rs2) = .ok (.or rd rs1 rs2) ∧
    decode (encR 0b0000000 0b111 0b0110011 rd rs1 rs2) = .ok (.and rd rs1 rs2) ∧
    (∀ w, w = encI 0b100 0b0010011 rd rs1 imm → imm = immI w → decode w = .ok (.xori rd rs1 imm)) ∧
    (∀ w, w = encI 0b110 0b0010011 rd rs1 imm → imm = immI w → decode w = .ok (.ori rd rs1 imm)) ∧
    (∀ w, w = encI 0b111 0b0010011 rd rs1 imm → imm = immI w → decode w = .ok (.andi rd rs1 imm))

/-- SLL, SRL, SLLI and SRLI: by the low 5 bits of the shift operand (R203, R207, R217, R218). -/
def Obligations.LogicalShiftResults : Prop :=
  ∀ (s : State) (rd rs1 rs2 : RegIdx) (imm : Word),
    (∃ t, exec (.sll rd rs1 rs2) s = .next t ∧
      WritesOnly s t rd (BitVec.ofNat 32 ((s.readReg rs1).toNat * 2 ^ ((s.readReg rs2).toNat % 32))) (s.pc + 4)) ∧
    (∃ t, exec (.srl rd rs1 rs2) s = .next t ∧
      WritesOnly s t rd (BitVec.ofNat 32 ((s.readReg rs1).toNat / 2 ^ ((s.readReg rs2).toNat % 32))) (s.pc + 4)) ∧
    (∃ t, exec (.slli rd rs1 imm) s = .next t ∧
      WritesOnly s t rd (BitVec.ofNat 32 ((s.readReg rs1).toNat * 2 ^ (imm.toNat % 32))) (s.pc + 4)) ∧
    (∃ t, exec (.srli rd rs1 imm) s = .next t ∧
      WritesOnly s t rd (BitVec.ofNat 32 ((s.readReg rs1).toNat / 2 ^ (imm.toNat % 32))) (s.pc + 4)) ∧
    decode (encR 0b0000000 0b001 0b0110011 rd rs1 rs2) = .ok (.sll rd rs1 rs2) ∧
    decode (encR 0b0000000 0b101 0b0110011 rd rs1 rs2) = .ok (.srl rd rs1 rs2) ∧
    (∀ w, w = encR 0b0000000 0b001 0b0010011 rd rs1 (imm.extractLsb' 0 5) →
      imm = immI w → decode w = .ok (.slli rd rs1 imm)) ∧
    (∀ w, w = encR 0b0000000 0b101 0b0010011 rd rs1 (imm.extractLsb' 0 5) →
      imm = immI w → decode w = .ok (.srli rd rs1 imm))

/-- SRA and SRAI: copies of bit 31 enter, the signed quotient rounded down (R208, R219). -/
def Obligations.ArithmeticShiftResults : Prop :=
  ∀ (s : State) (rd rs1 rs2 : RegIdx) (imm : Word),
    (∃ t, exec (.sra rd rs1 rs2) s = .next t ∧
      WritesOnly s t rd (BitVec.ofInt 32 ((s.readReg rs1).toInt / 2 ^ ((s.readReg rs2).toNat % 32))) (s.pc + 4)) ∧
    (∃ t, exec (.srai rd rs1 imm) s = .next t ∧
      WritesOnly s t rd (BitVec.ofInt 32 ((s.readReg rs1).toInt / 2 ^ (imm.toNat % 32))) (s.pc + 4)) ∧
    decode (encR 0b0100000 0b101 0b0110011 rd rs1 rs2) = .ok (.sra rd rs1 rs2) ∧
    (∀ w, w = encR 0b0100000 0b101 0b0010011 rd rs1 (imm.extractLsb' 0 5) →
      imm = immI w → decode w = .ok (.srai rd rs1 imm))

/-- SLT and SLTI compare signed (R204, R212). -/
def Obligations.SetLessThanSignedResults : Prop :=
  ∀ (s : State) (rd rs1 rs2 : RegIdx) (imm : Word),
    (∃ t, exec (.slt rd rs1 rs2) s = .next t ∧
      WritesOnly s t rd (if (s.readReg rs1).toInt < (s.readReg rs2).toInt then 1 else 0) (s.pc + 4)) ∧
    (∃ t, exec (.slti rd rs1 imm) s = .next t ∧
      WritesOnly s t rd (if (s.readReg rs1).toInt < imm.toInt then 1 else 0) (s.pc + 4)) ∧
    decode (encR 0b0000000 0b010 0b0110011 rd rs1 rs2) = .ok (.slt rd rs1 rs2) ∧
    (∀ w, w = encI 0b010 0b0010011 rd rs1 imm → imm = immI w → decode w = .ok (.slti rd rs1 imm))

/-- SLTU and SLTIU compare unsigned, SLTIU with the sign-extended immediate (R205, R213). -/
def Obligations.SetLessThanUnsignedResults : Prop :=
  ∀ (s : State) (rd rs1 rs2 : RegIdx) (imm : Word),
    (∃ t, exec (.sltu rd rs1 rs2) s = .next t ∧
      WritesOnly s t rd (if (s.readReg rs1).toNat < (s.readReg rs2).toNat then 1 else 0) (s.pc + 4)) ∧
    (∃ t, exec (.sltiu rd rs1 imm) s = .next t ∧
      WritesOnly s t rd (if (s.readReg rs1).toNat < imm.toNat then 1 else 0) (s.pc + 4)) ∧
    decode (encR 0b0000000 0b011 0b0110011 rd rs1 rs2) = .ok (.sltu rd rs1 rs2) ∧
    (∀ w, w = encI 0b011 0b0010011 rd rs1 imm → imm = immI w → decode w = .ok (.sltiu rd rs1 imm))

/-- LUI loads its immediate, which is bits 31 to 12 of its word above 12 zeros (R300). -/
def Obligations.LuiResult : Prop :=
  ∀ (s : State) (rd : RegIdx) (imm : Word),
    (∃ t, exec (.lui rd imm) s = .next t ∧ WritesOnly s t rd imm (s.pc + 4)) ∧
    (∀ w, w = encU 0b0110111 rd imm → imm.toNat = w.toNat / 4096 * 4096 → decode w = .ok (.lui rd imm))

/-- AUIPC adds its immediate to its own pc, modulo 2^32 (R301: the wrap is the spec's decision D4, log 9). -/
def Obligations.AuipcResult : Prop :=
  ∀ (s : State) (rd : RegIdx) (imm : Word),
    ∃ t, exec (.auipc rd imm) s = .next t ∧
      WritesOnly s t rd (BitVec.ofNat 32 (s.pc.toNat + imm.toNat)) (s.pc + 4)

/-! ## Loads and stores. The effective address wraps and the bounds do not (D4, D3), and bytes are little-endian (D1): the
spec's decisions, log 9. -/

/-- LB and LBU in the range load the byte, sign- and zero-extended, whatever rd is; outside it they fault and change
nothing else (R240, R241, R244). -/
def Obligations.LoadByteResults : Prop :=
  ∀ (s : State) (rd rs1 : RegIdx) (imm ea : Word), ea = effAddr s rs1 imm →
    (InRange s.params ea 1 →
      (∃ t, exec (.lb rd rs1 imm) s = .next t ∧
        WritesOnly s t rd (BitVec.ofInt 32 (s.mem.readByte ea.toNat).toInt) (s.pc + 4)) ∧
      (∃ t, exec (.lbu rd rs1 imm) s = .next t ∧
        WritesOnly s t rd (BitVec.ofNat 32 (s.mem.readByte ea.toNat).toNat) (s.pc + 4))) ∧
    (¬ InRange s.params ea 1 →
      exec (.lb rd rs1 imm) s = .next { s with run := .faulted (.outOfBounds ea .byte) s.pc } ∧
      exec (.lbu rd rs1 imm) s = .next { s with run := .faulted (.outOfBounds ea .byte) s.pc })

/-- LH and LHU, at every alignment (R240, R242, R245). -/
def Obligations.LoadHalfResults : Prop :=
  ∀ (s : State) (rd rs1 : RegIdx) (imm ea : Word) (h : Nat), ea = effAddr s rs1 imm →
    h = (s.mem.readByte ea.toNat).toNat + 256 * (s.mem.readByte (ea.toNat + 1)).toNat →
    (InRange s.params ea 2 →
      (∃ t, exec (.lh rd rs1 imm) s = .next t ∧ WritesOnly s t rd (BitVec.ofInt 32 (Int.bmod h 65536)) (s.pc + 4)) ∧
      (∃ t, exec (.lhu rd rs1 imm) s = .next t ∧ WritesOnly s t rd (BitVec.ofNat 32 h) (s.pc + 4))) ∧
    (¬ InRange s.params ea 2 →
      exec (.lh rd rs1 imm) s = .next { s with run := .faulted (.outOfBounds ea .half) s.pc } ∧
      exec (.lhu rd rs1 imm) s = .next { s with run := .faulted (.outOfBounds ea .half) s.pc })

/-- LW, at every alignment (R240, R243). -/
def Obligations.LoadWordResults : Prop :=
  ∀ (s : State) (rd rs1 : RegIdx) (imm ea : Word), ea = effAddr s rs1 imm →
    (InRange s.params ea 4 →
      ∃ t, exec (.lw rd rs1 imm) s = .next t ∧
        WritesOnly s t rd
          (BitVec.ofNat 32 ((s.mem.readByte ea.toNat).toNat + 256 * (s.mem.readByte (ea.toNat + 1)).toNat +
            65536 * (s.mem.readByte (ea.toNat + 2)).toNat + 16777216 * (s.mem.readByte (ea.toNat + 3)).toNat))
          (s.pc + 4)) ∧
    (¬ InRange s.params ea 4 →
      exec (.lw rd rs1 imm) s = .next { s with run := .faulted (.outOfBounds ea .word) s.pc })

/-- SB, SH and SW in the range store the low bytes of x[rs2] at the effective address and change no other byte and no
register; outside it they fault and change nothing else (R240, R246, R247, R248). -/
def Obligations.StoreResults : Prop :=
  ∀ (s : State) (rs1 rs2 : RegIdx) (imm ea : Word), s.mem.wf → ea = effAddr s rs1 imm →
    (InRange s.params ea 1 →
      ∃ t, exec (.sb rs1 rs2 imm) s = .next t ∧ StoresOnly s t ea.toNat 1 (s.readReg rs2) (s.pc + 4)) ∧
    (InRange s.params ea 2 →
      ∃ t, exec (.sh rs1 rs2 imm) s = .next t ∧ StoresOnly s t ea.toNat 2 (s.readReg rs2) (s.pc + 4)) ∧
    (InRange s.params ea 4 →
      ∃ t, exec (.sw rs1 rs2 imm) s = .next t ∧ StoresOnly s t ea.toNat 4 (s.readReg rs2) (s.pc + 4))

/-- A store out of bounds faults whole: no byte is written, not even those in range (R240, R246, R247, R248). -/
def Obligations.StoreOutOfBoundsFaultsWhole : Prop :=
  ∀ (s : State) (rs1 rs2 : RegIdx) (imm ea : Word), ea = effAddr s rs1 imm →
    (¬ InRange s.params ea 1 →
      exec (.sb rs1 rs2 imm) s = .next { s with run := .faulted (.outOfBounds ea .byte) s.pc }) ∧
    (¬ InRange s.params ea 2 →
      exec (.sh rs1 rs2 imm) s = .next { s with run := .faulted (.outOfBounds ea .half) s.pc }) ∧
    (¬ InRange s.params ea 4 →
      exec (.sw rs1 rs2 imm) s = .next { s with run := .faulted (.outOfBounds ea .word) s.pc })

/-! ## Control flow. The branches' last clauses give the encoding each rule names; its fixed fields are log 10's. -/

/-- BEQ and BNE (R271, R272). -/
def Obligations.EqualityBranchResults : Prop :=
  ∀ (s : State) (rs1 rs2 : RegIdx) (imm : Word),
    (∃ t, exec (.beq rs1 rs2 imm) s = .next t ∧
      MovesOnly s t (if s.readReg rs1 = s.readReg rs2 then s.pc + imm else s.pc + 4)) ∧
    (∃ t, exec (.bne rs1 rs2 imm) s = .next t ∧
      MovesOnly s t (if s.readReg rs1 = s.readReg rs2 then s.pc + 4 else s.pc + imm)) ∧
    (∀ w, w = encB 0b000 0b1100011 rs1 rs2 imm → imm = immB w → decode w = .ok (.beq rs1 rs2 imm)) ∧
    (∀ w, w = encB 0b001 0b1100011 rs1 rs2 imm → imm = immB w → decode w = .ok (.bne rs1 rs2 imm))

/-- BLT and BGE compare signed (R273, R274). -/
def Obligations.SignedBranchResults : Prop :=
  ∀ (s : State) (rs1 rs2 : RegIdx) (imm : Word),
    (∃ t, exec (.blt rs1 rs2 imm) s = .next t ∧
      MovesOnly s t (if (s.readReg rs1).toInt < (s.readReg rs2).toInt then s.pc + imm else s.pc + 4)) ∧
    (∃ t, exec (.bge rs1 rs2 imm) s = .next t ∧
      MovesOnly s t (if (s.readReg rs1).toInt < (s.readReg rs2).toInt then s.pc + 4 else s.pc + imm)) ∧
    (∀ w, w = encB 0b100 0b1100011 rs1 rs2 imm → imm = immB w → decode w = .ok (.blt rs1 rs2 imm)) ∧
    (∀ w, w = encB 0b101 0b1100011 rs1 rs2 imm → imm = immB w → decode w = .ok (.bge rs1 rs2 imm))

/-- BLTU and BGEU compare unsigned (R275, R276). -/
def Obligations.UnsignedBranchResults : Prop :=
  ∀ (s : State) (rs1 rs2 : RegIdx) (imm : Word),
    (∃ t, exec (.bltu rs1 rs2 imm) s = .next t ∧
      MovesOnly s t (if (s.readReg rs1).toNat < (s.readReg rs2).toNat then s.pc + imm else s.pc + 4)) ∧
    (∃ t, exec (.bgeu rs1 rs2 imm) s = .next t ∧
      MovesOnly s t (if (s.readReg rs1).toNat < (s.readReg rs2).toNat then s.pc + 4 else s.pc + imm)) ∧
    (∀ w, w = encB 0b110 0b1100011 rs1 rs2 imm → imm = immB w → decode w = .ok (.bltu rs1 rs2 imm)) ∧
    (∀ w, w = encB 0b111 0b1100011 rs1 rs2 imm → imm = immB w → decode w = .ok (.bgeu rs1 rs2 imm))

/-- JAL links pc + 4 and jumps by its offset; JALR jumps to the sum of the OLD x[rs1] and its offset, rounded down to even,
also where rd is rs1 (R290, R291; the order of read and write is the spec's decision D16, log 9). -/
def Obligations.JumpResults : Prop :=
  ∀ (s : State) (rd rs1 : RegIdx) (imm : Word),
    (∃ t, exec (.jal rd imm) s = .next t ∧ WritesOnly s t rd (s.pc + 4) (s.pc + imm)) ∧
    (∃ t, exec (.jalr rd rs1 imm) s = .next t ∧
      WritesOnly s t rd (s.pc + 4)
        (BitVec.ofNat 32 (((s.readReg rs1).toNat + imm.toNat) % 2 ^ 32 / 2 * 2)))

/-- A jump or taken branch to a target that is not a multiple of 4 completes, and the next step faults with
MisalignedFetch of that target, keeping the link (R270, R290, R291: the spec's decision D5, log 9). -/
def Obligations.MisalignedTargetFaultsAtTheNextFetch : Prop :=
  ∀ (i : Instr) (s t : State),
    (∃ rd imm, i = .jal rd imm) ∨ (∃ rd rs1 imm, i = .jalr rd rs1 imm) ∨
      (∃ rs1 rs2 imm, i = .beq rs1 rs2 imm ∨ i = .bne rs1 rs2 imm ∨ i = .blt rs1 rs2 imm ∨ i = .bge rs1 rs2 imm ∨
        i = .bltu rs1 rs2 imm ∨ i = .bgeu rs1 rs2 imm) →
    s.run = .running → exec i s = .next t → t.pc.toNat % 4 ≠ 0 →
      t.run = .running ∧ t.pc = nextPcTable i s ∧
      (∀ rd, i.dest = some rd → rd ≠ 0#5 → t.readReg rd = s.pc + 4) ∧
      step t = .next { t with run := .faulted (.misalignedFetch t.pc) t.pc }

/-! ## System instructions -/

/-- ECALL halts with the code in EXIT_REG, whatever register that is and whatever the others hold; nothing else changes
(R310: the register and the lack of a call number are the spec's decisions D7 and D8, logs 5 and 9). -/
def Obligations.EcallHaltsWithTheExitRegister : Prop :=
  ∀ s : State, exec .ecall s = .next { s with run := .halted (s.readReg s.params.exitReg) }

/-- FENCE only advances the pc, whatever its fields hold, and every word of its opcode and funct3 is one (R312: that all other
bits are ignored is the spec's decision D10, log 9). -/
def Obligations.FenceOnlyAdvances : Prop :=
  ∀ (s : State) (rd rs1 : RegIdx) (imm : Word),
    exec (.fence rd rs1 imm) s = .next { s with pc := s.pc + 4 } ∧
    (∀ w, w = encI 0b000 0b0001111 rd rs1 imm → imm = immI w → decode w = .ok (.fence rd rs1 imm))

/-- EBREAK only advances the pc: it neither traps nor halts (R311: the spec's decision D9, log 9). -/
def Obligations.EbreakOnlyAdvances : Prop :=
  ∀ s : State, exec .ebreak s = .next { s with pc := s.pc + 4 }

/-! ## The step -/

/-- A Running core whose pc is aligned and in range runs the instruction that the four bytes there decode to, with nothing
around it (R43, R79; byte order as in log 9). -/
def Obligations.StepRunsTheDecodedInstruction : Prop :=
  ∀ (s : State) (i : Instr), s.run = .running → s.pc.toNat % 4 = 0 → InRange s.params s.pc 4 →
    decode (s.mem.readByte (s.pc.toNat + 3) ++ s.mem.readByte (s.pc.toNat + 2) ++
      s.mem.readByte (s.pc.toNat + 1) ++ s.mem.readByte s.pc.toNat) = .ok i →
    step s = exec i s

/-- The fetch faults in their order: alignment, then bounds, then decode (R338; the first two's order is the spec's decision
D6, log 9). -/
def Obligations.FetchFaultsInPriorityOrder : Prop :=
  ∀ (s : State) (w : Word), s.run = .running →
    w = s.mem.readByte (s.pc.toNat + 3) ++ s.mem.readByte (s.pc.toNat + 2) ++
      s.mem.readByte (s.pc.toNat + 1) ++ s.mem.readByte s.pc.toNat →
    (s.pc.toNat % 4 ≠ 0 → step s = .next { s with run := .faulted (.misalignedFetch s.pc) s.pc }) ∧
    (s.pc.toNat % 4 = 0 → ¬ InRange s.params s.pc 4 →
      step s = .next { s with run := .faulted (.outOfBounds s.pc .word) s.pc }) ∧
    (s.pc.toNat % 4 = 0 → InRange s.params s.pc 4 → decode w = .error (.illegalInstruction w) →
      step s = .next { s with run := .faulted (.illegalInstruction w) s.pc })

/-- Exactly when a step of a Running core faults (R330, R335, R338): the fetch or decode faults, or the instruction's own
access is out of bounds. -/
def Obligations.StepFaultsExactlyWhenAnAccessOrDecodeFails : Prop :=
  ∀ s t : State, s.run = .running → step s = .next t →
    ((∃ f p, t.run = .faulted f p) ↔
      s.pc.toNat % 4 ≠ 0 ∨ ¬ InRange s.params s.pc 4 ∨
      (∃ w, fetchWord s = .ok w ∧ decode w = .error (.illegalInstruction w)) ∨
      (∃ i a w, fetchInstr s = .ok i ∧ dataAccess i s = some (a, w) ∧ ¬ InRange s.params a w.bytes))

/-- MisalignedFetch comes from the fetch alone: no instruction raises it itself (R336; that jumps leave it to the fetch is the
spec's decision D5, log 9). -/
def Obligations.MisalignedFetchComesFromFetchAlone : Prop :=
  (∀ (s t : State) (p q : Word), s.run = .running → step s = .next t →
    t.run = .faulted (.misalignedFetch p) q → p = s.pc ∧ q = s.pc ∧ s.pc.toNat % 4 ≠ 0) ∧
  (∀ (i : Instr) (s t : State) (p q : Word), s.run = .running → exec i s = .next t →
    t.run ≠ .faulted (.misalignedFetch p) q)

/-- Halted and Faulted are terminal: any number of steps changes nothing (R44, R341: the spec's decision D17, log 9). -/
def Obligations.TerminalStatesNeverChange : Prop :=
  ∀ (s : State) (k : Nat), s.run ≠ .running → Sys2Proof.core.run k s = .next s

/-- Every step, from any state, answers a next state: nothing is refused and no step stops outside the run state
(R110's decoder is total; that faults and halts are next states is log 7). -/
def Obligations.EveryStepAnswersANextState : Prop :=
  (∀ s : State, ∃ t, step s = .next t) ∧
  (∀ (k : Nat) (s : State), ∃ t, Sys2Proof.core.run k s = .next t)

/-- A faulting step commits nothing: no register, no memory byte and no pc is written (R332). -/
def Obligations.FaultingStepCommitsNothing : Prop :=
  ∀ (s t : State) (f : Fault) (p : Word), s.run = .running → step s = .next t → t.run = .faulted f p →
    (∀ r, t.readReg r = s.readReg r) ∧ (∀ a, t.mem.readByte a = s.mem.readByte a) ∧ t.pc = s.pc ∧ p = s.pc ∧
    t = { s with run := .faulted f s.pc }

/-- The executor gives one of its three results, ECALL alone gives the halt, which writes only the run state (R339), and the
next step changes nothing (R44: the spec's decision D17, log 9). -/
def Obligations.OnlyEcallHalts : Prop :=
  (∀ (i : Instr) (s : State), s.run = .running → ∃ t, exec i s = .next t ∧
    (t.run = .running ∨ (∃ c, t.run = .halted c) ∨ ∃ f, t.run = .faulted f s.pc)) ∧
  (∀ (s t : State) (c : Word), s.run = .running → step s = .next t → t.run = .halted c →
    fetchInstr s = .ok .ecall ∧ t = { s with run := .halted c } ∧ step t = .next t)

/-- Memory changes only through the stores SB, SH and SW, in the bytes of their access, and through the loader before launch
(R89). -/
def Obligations.MemoryChangesOnlyByStores : Prop :=
  (∀ (s t : State) (b : Nat), step s = .next t → t.mem.readByte b ≠ s.mem.readByte b →
    ∃ i a w, fetchInstr s = .ok i ∧ storeAccess i s = some (a, w) ∧ a.toNat ≤ b ∧ b < a.toNat + w.bytes) ∧
  (∀ l : Launch, (State.launch l).mem = l.mem)

/-- A step changes no register but the decoded instruction's rd, and never x0 (R35's table, the spec's own inference). -/
def Obligations.RegistersChangeOnlyAtTheDestination : Prop :=
  ∀ (s t : State) (r : RegIdx), step s = .next t → t.readReg r ≠ s.readReg r →
    ∃ i, fetchInstr s = .ok i ∧ i.dest = some r ∧ r ≠ 0#5

/-- An instruction's effect depends on no register but its sources: two states that agree in everything but other registers
take the same pc, memory and run state, and each register either stays in both or is rd and becomes the same in both
(R35's table, the spec's own inference). -/
def Obligations.ResultsDependOnlyOnTheSources : Prop :=
  ∀ (i : Instr) (s s' : State), s.pc = s'.pc → s.mem = s'.mem → s.run = s'.run → s.params = s'.params →
    (∀ r ∈ i.sources s.params.exitReg, s.readReg r = s'.readReg r) →
    ∃ t t', exec i s = .next t ∧ exec i s' = .next t' ∧
      t.pc = t'.pc ∧ t.mem = t'.mem ∧ t.run = t'.run ∧ t.params = t'.params ∧
      ∀ r, (t.readReg r = s.readReg r ∧ t'.readReg r = s'.readReg r) ∨
        (i.dest = some r ∧ t.readReg r = t'.readReg r)

/-- The NextPc rule: a step that leaves the core Running commits the instruction's NextPc, and on a fault or halt the pc keeps
the address of that instruction (R38). -/
def Obligations.NextPcIsCommittedOnlyOnContinue : Prop :=
  ∀ s t : State, s.run = .running → step s = .next t →
    (t.run = .running → ∃ i, fetchInstr s = .ok i ∧ t.pc = nextPcTable i s) ∧
    (t.run ≠ .running → t.pc = s.pc)

/-- The launch parameters are fixed for the whole run: the range never grows (R71: the spec's decision D2, log 3). -/
def Obligations.ParametersAreFixedForTheRun : Prop :=
  ∀ (k : Nat) (s t : State), Sys2Proof.core.run k s = .next t → t.params = s.params

/-- An even pc stays even through every step: decoded offsets are even and JALR clears bit 0 (R116, R118, R291). -/
def Obligations.EvenPcStaysEven : Prop :=
  ∀ s t : State, s.pc.toNat % 2 = 0 → step s = .next t → t.pc.toNat % 2 = 0

/-- Every step keeps the invariant: the memory keeps its one form and stays inside the range, and a terminal state's record
agrees with the state it left (R71, R332, R333, R339; that a terminal
state stays is R44, the spec's decision D17, log 9). -/
def Obligations.EveryStepKeepsTheInvariant : Prop :=
  ∀ s t : State, s.Inv → step s = .next t → t.Inv

/-- The invariant holds at reset, and at every launch of an image that fits (R48, R370, R374; the reset values are the
model's, logs 1 to 5). -/
def Obligations.InvariantHoldsAtLaunch : Prop :=
  State.reset.Inv ∧ ∀ l : Launch, l.imageFits → (State.launch l).Inv

/-- Launch makes a Running core at the entry point with the registers and memory given, and checks nothing: a bad entry point
faults in the first step (R47, R48, R370, R371: the spec's decisions D14, D15 and D23). -/
def Obligations.LaunchGivesARunningCoreAndChecksNothing : Prop :=
  ∀ l : Launch,
    (State.launch l).run = .running ∧ (State.launch l).pc = l.entryPc ∧ (State.launch l).mem = l.mem ∧
    (State.launch l).x = l.gpr ∧ (State.launch l).readReg 0 = 0 ∧
    (l.entryPc.toNat % 4 ≠ 0 → step (State.launch l) =
      .next { State.launch l with run := .faulted (.misalignedFetch l.entryPc) l.entryPc }) ∧
    (l.entryPc.toNat % 4 = 0 → ¬ InRange l.params l.entryPc 4 → step (State.launch l) =
      .next { State.launch l with run := .faulted (.outOfBounds l.entryPc .word) l.entryPc })

/-- A word stored to an address is the instruction the next fetch from there runs, with no fence between (R87, the spec's own
inference). -/
def Obligations.StoredWordIsTheNextInstructionFetched : Prop :=
  ∀ (s : State) (rs1 rs2 : RegIdx) (imm : Word) (i : Instr), s.run = .running → s.mem.wf →
    InRange s.params (effAddr s rs1 imm) 4 → (effAddr s rs1 imm).toNat % 4 = 0 → decode (s.readReg rs2) = .ok i →
    ∃ t, exec (.sw rs1 rs2 imm) s = .next t ∧
      step { t with pc := effAddr s rs1 imm } = exec i { t with pc := effAddr s rs1 imm }

/-! ## The host's interface -/

/-- step() reports Continue with the new pc, Halt with the code, or Fault with the fault and its pc, and again the same on a
terminal core (R377: the spec's decisions D21 and D24, and R44's D17, log 9). -/
def Obligations.HostStepReportsTheStep : Prop :=
  ∀ s t : State, step s = .next t →
    (hostStep s).1 = t ∧
    (t.run = .running → (hostStep s).2 = .continued t.pc) ∧
    (∀ c, t.run = .halted c → (hostStep s).2 = .halt c) ∧
    (∀ f p, t.run = .faulted f p → (hostStep s).2 = .fault f p) ∧
    (s.run ≠ .running → hostStep s = (s, s.report))

/-- A run that has ended has one result: more budget does not change it, and it is the state the same number of steps reaches
(R378, R380). `runFor` is the model's own form of run(), under the host's budget of steps (log 14); that the steps a budget has
left over change nothing is R44, the spec's decision D17 (log 9). -/
def Obligations.RunEndsInOneResult : Prop :=
  (∀ (n : Nat) (s : State), Sys2Proof.core.run n s = .next (runFor n s)) ∧
  (∀ (n k : Nat) (s : State), (runFor n s).run ≠ .running → runFor (n + k) s = runFor n s)

/-! ## Pseudo-instructions -/

/-- `hi` and `lo` split every Word, and both are immediates their instructions can spell (R171). -/
def Obligations.HiAndLoSplitEveryWord : Prop :=
  ∀ v : Word, hiImm v + loImm v = v ∧ ImmU (hiImm v) ∧ ImmIS (loImm v) ∧
    (hi20 v).toNat = (v.toNat + 0x800) / 4096 % 2 ^ 20

/-- `li rd, v` leaves v in rd, whichever of its expansions is taken (R171). -/
def Obligations.LiExpansionLoadsItsConstant : Prop :=
  ∀ (s : State) (rd : RegIdx) (v : Word), rd ≠ 0#5 →
    ((Pseudo.li rd v).expand = [.addi rd 0 v] ∨ (Pseudo.li rd v).expand = [.lui rd (hiImm v)] ∨
      (Pseudo.li rd v).expand = [.lui rd (hiImm v), .addi rd rd (loImm v)]) ∧
    (∀ i, (Pseudo.li rd v).expand = [i] → i.WellFormed ∧ ∃ t, exec i s = .next t ∧ t.readReg rd = v) ∧
    (∀ i j, (Pseudo.li rd v).expand = [i, j] → i.WellFormed ∧ j.WellFormed ∧
      ∃ t u, exec i s = .next t ∧ exec j t = .next u ∧ u.readReg rd = v)
end

