-- ==== Sys2Proof/Laws/Encoding.lean ====
section
/-!
SUPPORT. What each encoding format is made of, bit by bit, and from that each field the decoder cuts back out of it and
each fixed-bit mask of the instruction list.
-/

namespace Sys2Proof

/-! ## R-type -/

theorem encR_bit (f7 : BitVec 7) (f3 : BitVec 3) (opc : BitVec 7) (rd rs1 rs2 : RegIdx) (i : Nat) :
    (encR f7 f3 opc rd rs1 rs2).getLsbD i =
    if i < 7 then opc.getLsbD (i)
    else if i - 7 < 5 then rd.getLsbD (i - 7)
    else if i - 7 - 5 < 3 then f3.getLsbD (i - 7 - 5)
    else if i - 7 - 5 - 3 < 5 then rs1.getLsbD (i - 7 - 5 - 3)
    else if i - 7 - 5 - 3 - 5 < 5 then rs2.getLsbD (i - 7 - 5 - 3 - 5)
    else f7.getLsbD (i - 7 - 5 - 3 - 5 - 5) := by
  unfold encR
  simp only [BitVec.getLsbD_append]

theorem opcodeOf_encR (f7 : BitVec 7) (f3 : BitVec 3) (opc : BitVec 7) (rd rs1 rs2 : RegIdx) : opcodeOf (encR f7 f3 opc rd rs1 rs2) = opc := by
  apply BitVec.eq_of_getLsbD_eq; intro i hi
  interval_cases i <;> simp only [opcodeOf, encR_bit, BitVec.getLsbD_extractLsb', Nat.reduceLT, Nat.reduceAdd, Nat.reduceSub, reduceIte, decide_true,
    Bool.true_and]

theorem rdOf_encR (f7 : BitVec 7) (f3 : BitVec 3) (opc : BitVec 7) (rd rs1 rs2 : RegIdx) : rdOf (encR f7 f3 opc rd rs1 rs2) = rd := by
  apply BitVec.eq_of_getLsbD_eq; intro i hi
  interval_cases i <;> simp only [rdOf, encR_bit, BitVec.getLsbD_extractLsb', Nat.reduceLT, Nat.reduceAdd, Nat.reduceSub, reduceIte, decide_true,
    Bool.true_and]

theorem funct3Of_encR (f7 : BitVec 7) (f3 : BitVec 3) (opc : BitVec 7) (rd rs1 rs2 : RegIdx) : funct3Of (encR f7 f3 opc rd rs1 rs2) = f3 := by
  apply BitVec.eq_of_getLsbD_eq; intro i hi
  interval_cases i <;> simp only [funct3Of, encR_bit, BitVec.getLsbD_extractLsb', Nat.reduceLT, Nat.reduceAdd, Nat.reduceSub, reduceIte, decide_true,
    Bool.true_and]

theorem rs1Of_encR (f7 : BitVec 7) (f3 : BitVec 3) (opc : BitVec 7) (rd rs1 rs2 : RegIdx) : rs1Of (encR f7 f3 opc rd rs1 rs2) = rs1 := by
  apply BitVec.eq_of_getLsbD_eq; intro i hi
  interval_cases i <;> simp only [rs1Of, encR_bit, BitVec.getLsbD_extractLsb', Nat.reduceLT, Nat.reduceAdd, Nat.reduceSub, reduceIte, decide_true,
    Bool.true_and]

theorem rs2Of_encR (f7 : BitVec 7) (f3 : BitVec 3) (opc : BitVec 7) (rd rs1 rs2 : RegIdx) : rs2Of (encR f7 f3 opc rd rs1 rs2) = rs2 := by
  apply BitVec.eq_of_getLsbD_eq; intro i hi
  interval_cases i <;> simp only [rs2Of, encR_bit, BitVec.getLsbD_extractLsb', Nat.reduceLT, Nat.reduceAdd, Nat.reduceSub, reduceIte, decide_true,
    Bool.true_and]

theorem funct7Of_encR (f7 : BitVec 7) (f3 : BitVec 3) (opc : BitVec 7) (rd rs1 rs2 : RegIdx) : funct7Of (encR f7 f3 opc rd rs1 rs2) = f7 := by
  apply BitVec.eq_of_getLsbD_eq; intro i hi
  interval_cases i <;> simp only [funct7Of, encR_bit, BitVec.getLsbD_extractLsb', Nat.reduceLT, Nat.reduceAdd, Nat.reduceSub, reduceIte, decide_true,
    Bool.true_and]

/-! ## I-type -/

theorem encI_bit (f3 : BitVec 3) (opc : BitVec 7) (rd rs1 : RegIdx) (imm : Word) (i : Nat) :
    (encI f3 opc rd rs1 imm).getLsbD i =
    if i < 7 then opc.getLsbD (i)
    else if i - 7 < 5 then rd.getLsbD (i - 7)
    else if i - 7 - 5 < 3 then f3.getLsbD (i - 7 - 5)
    else if i - 7 - 5 - 3 < 5 then rs1.getLsbD (i - 7 - 5 - 3)
    else (imm.extractLsb' 0 12).getLsbD (i - 7 - 5 - 3 - 5) := by
  unfold encI
  simp only [BitVec.getLsbD_append]

theorem opcodeOf_encI (f3 : BitVec 3) (opc : BitVec 7) (rd rs1 : RegIdx) (imm : Word) : opcodeOf (encI f3 opc rd rs1 imm) = opc := by
  apply BitVec.eq_of_getLsbD_eq; intro i hi
  interval_cases i <;> simp only [opcodeOf, encI_bit, BitVec.getLsbD_extractLsb', Nat.reduceLT, Nat.reduceAdd, Nat.reduceSub, reduceIte, decide_true,
    Bool.true_and]

theorem rdOf_encI (f3 : BitVec 3) (opc : BitVec 7) (rd rs1 : RegIdx) (imm : Word) : rdOf (encI f3 opc rd rs1 imm) = rd := by
  apply BitVec.eq_of_getLsbD_eq; intro i hi
  interval_cases i <;> simp only [rdOf, encI_bit, BitVec.getLsbD_extractLsb', Nat.reduceLT, Nat.reduceAdd, Nat.reduceSub, reduceIte, decide_true,
    Bool.true_and]

theorem funct3Of_encI (f3 : BitVec 3) (opc : BitVec 7) (rd rs1 : RegIdx) (imm : Word) : funct3Of (encI f3 opc rd rs1 imm) = f3 := by
  apply BitVec.eq_of_getLsbD_eq; intro i hi
  interval_cases i <;> simp only [funct3Of, encI_bit, BitVec.getLsbD_extractLsb', Nat.reduceLT, Nat.reduceAdd, Nat.reduceSub, reduceIte, decide_true,
    Bool.true_and]

theorem rs1Of_encI (f3 : BitVec 3) (opc : BitVec 7) (rd rs1 : RegIdx) (imm : Word) : rs1Of (encI f3 opc rd rs1 imm) = rs1 := by
  apply BitVec.eq_of_getLsbD_eq; intro i hi
  interval_cases i <;> simp only [rs1Of, encI_bit, BitVec.getLsbD_extractLsb', Nat.reduceLT, Nat.reduceAdd, Nat.reduceSub, reduceIte, decide_true,
    Bool.true_and]

/-! ## S-type -/

theorem encS_bit (f3 : BitVec 3) (opc : BitVec 7) (rs1 rs2 : RegIdx) (imm : Word) (i : Nat) :
    (encS f3 opc rs1 rs2 imm).getLsbD i =
    if i < 7 then opc.getLsbD (i)
    else if i - 7 < 5 then (imm.extractLsb' 0 5).getLsbD (i - 7)
    else if i - 7 - 5 < 3 then f3.getLsbD (i - 7 - 5)
    else if i - 7 - 5 - 3 < 5 then rs1.getLsbD (i - 7 - 5 - 3)
    else if i - 7 - 5 - 3 - 5 < 5 then rs2.getLsbD (i - 7 - 5 - 3 - 5)
    else (imm.extractLsb' 5 7).getLsbD (i - 7 - 5 - 3 - 5 - 5) := by
  unfold encS
  simp only [BitVec.getLsbD_append]

theorem opcodeOf_encS (f3 : BitVec 3) (opc : BitVec 7) (rs1 rs2 : RegIdx) (imm : Word) : opcodeOf (encS f3 opc rs1 rs2 imm) = opc := by
  apply BitVec.eq_of_getLsbD_eq; intro i hi
  interval_cases i <;> simp only [opcodeOf, encS_bit, BitVec.getLsbD_extractLsb', Nat.reduceLT, Nat.reduceAdd, Nat.reduceSub, reduceIte, decide_true,
    Bool.true_and]

theorem funct3Of_encS (f3 : BitVec 3) (opc : BitVec 7) (rs1 rs2 : RegIdx) (imm : Word) : funct3Of (encS f3 opc rs1 rs2 imm) = f3 := by
  apply BitVec.eq_of_getLsbD_eq; intro i hi
  interval_cases i <;> simp only [funct3Of, encS_bit, BitVec.getLsbD_extractLsb', Nat.reduceLT, Nat.reduceAdd, Nat.reduceSub, reduceIte, decide_true,
    Bool.true_and]

theorem rs1Of_encS (f3 : BitVec 3) (opc : BitVec 7) (rs1 rs2 : RegIdx) (imm : Word) : rs1Of (encS f3 opc rs1 rs2 imm) = rs1 := by
  apply BitVec.eq_of_getLsbD_eq; intro i hi
  interval_cases i <;> simp only [rs1Of, encS_bit, BitVec.getLsbD_extractLsb', Nat.reduceLT, Nat.reduceAdd, Nat.reduceSub, reduceIte, decide_true,
    Bool.true_and]

theorem rs2Of_encS (f3 : BitVec 3) (opc : BitVec 7) (rs1 rs2 : RegIdx) (imm : Word) : rs2Of (encS f3 opc rs1 rs2 imm) = rs2 := by
  apply BitVec.eq_of_getLsbD_eq; intro i hi
  interval_cases i <;> simp only [rs2Of, encS_bit, BitVec.getLsbD_extractLsb', Nat.reduceLT, Nat.reduceAdd, Nat.reduceSub, reduceIte, decide_true,
    Bool.true_and]

/-! ## B-type -/

theorem encB_bit (f3 : BitVec 3) (opc : BitVec 7) (rs1 rs2 : RegIdx) (imm : Word) (i : Nat) :
    (encB f3 opc rs1 rs2 imm).getLsbD i =
    if i < 7 then opc.getLsbD (i)
    else if i - 7 < 1 then (imm.extractLsb' 11 1).getLsbD (i - 7)
    else if i - 7 - 1 < 4 then (imm.extractLsb' 1 4).getLsbD (i - 7 - 1)
    else if i - 7 - 1 - 4 < 3 then f3.getLsbD (i - 7 - 1 - 4)
    else if i - 7 - 1 - 4 - 3 < 5 then rs1.getLsbD (i - 7 - 1 - 4 - 3)
    else if i - 7 - 1 - 4 - 3 - 5 < 5 then rs2.getLsbD (i - 7 - 1 - 4 - 3 - 5)
    else if i - 7 - 1 - 4 - 3 - 5 - 5 < 6 then (imm.extractLsb' 5 6).getLsbD (i - 7 - 1 - 4 - 3 - 5 - 5)
    else (imm.extractLsb' 12 1).getLsbD (i - 7 - 1 - 4 - 3 - 5 - 5 - 6) := by
  unfold encB
  simp only [BitVec.getLsbD_append]

theorem opcodeOf_encB (f3 : BitVec 3) (opc : BitVec 7) (rs1 rs2 : RegIdx) (imm : Word) : opcodeOf (encB f3 opc rs1 rs2 imm) = opc := by
  apply BitVec.eq_of_getLsbD_eq; intro i hi
  interval_cases i <;> simp only [opcodeOf, encB_bit, BitVec.getLsbD_extractLsb', Nat.reduceLT, Nat.reduceAdd, Nat.reduceSub, reduceIte, decide_true,
    Bool.true_and]

theorem funct3Of_encB (f3 : BitVec 3) (opc : BitVec 7) (rs1 rs2 : RegIdx) (imm : Word) : funct3Of (encB f3 opc rs1 rs2 imm) = f3 := by
  apply BitVec.eq_of_getLsbD_eq; intro i hi
  interval_cases i <;> simp only [funct3Of, encB_bit, BitVec.getLsbD_extractLsb', Nat.reduceLT, Nat.reduceAdd, Nat.reduceSub, reduceIte, decide_true,
    Bool.true_and]

theorem rs1Of_encB (f3 : BitVec 3) (opc : BitVec 7) (rs1 rs2 : RegIdx) (imm : Word) : rs1Of (encB f3 opc rs1 rs2 imm) = rs1 := by
  apply BitVec.eq_of_getLsbD_eq; intro i hi
  interval_cases i <;> simp only [rs1Of, encB_bit, BitVec.getLsbD_extractLsb', Nat.reduceLT, Nat.reduceAdd, Nat.reduceSub, reduceIte, decide_true,
    Bool.true_and]

theorem rs2Of_encB (f3 : BitVec 3) (opc : BitVec 7) (rs1 rs2 : RegIdx) (imm : Word) : rs2Of (encB f3 opc rs1 rs2 imm) = rs2 := by
  apply BitVec.eq_of_getLsbD_eq; intro i hi
  interval_cases i <;> simp only [rs2Of, encB_bit, BitVec.getLsbD_extractLsb', Nat.reduceLT, Nat.reduceAdd, Nat.reduceSub, reduceIte, decide_true,
    Bool.true_and]

/-! ## U-type -/

theorem encU_bit (opc : BitVec 7) (rd : RegIdx) (imm : Word) (i : Nat) :
    (encU opc rd imm).getLsbD i =
    if i < 7 then opc.getLsbD (i)
    else if i - 7 < 5 then rd.getLsbD (i - 7)
    else (imm.extractLsb' 12 20).getLsbD (i - 7 - 5) := by
  unfold encU
  simp only [BitVec.getLsbD_append]

theorem opcodeOf_encU (opc : BitVec 7) (rd : RegIdx) (imm : Word) : opcodeOf (encU opc rd imm) = opc := by
  apply BitVec.eq_of_getLsbD_eq; intro i hi
  interval_cases i <;> simp only [opcodeOf, encU_bit, BitVec.getLsbD_extractLsb', Nat.reduceLT, Nat.reduceAdd, Nat.reduceSub, reduceIte, decide_true,
    Bool.true_and]

theorem rdOf_encU (opc : BitVec 7) (rd : RegIdx) (imm : Word) : rdOf (encU opc rd imm) = rd := by
  apply BitVec.eq_of_getLsbD_eq; intro i hi
  interval_cases i <;> simp only [rdOf, encU_bit, BitVec.getLsbD_extractLsb', Nat.reduceLT, Nat.reduceAdd, Nat.reduceSub, reduceIte, decide_true,
    Bool.true_and]

/-! ## J-type -/

theorem encJ_bit (opc : BitVec 7) (rd : RegIdx) (imm : Word) (i : Nat) :
    (encJ opc rd imm).getLsbD i =
    if i < 7 then opc.getLsbD (i)
    else if i - 7 < 5 then rd.getLsbD (i - 7)
    else if i - 7 - 5 < 8 then (imm.extractLsb' 12 8).getLsbD (i - 7 - 5)
    else if i - 7 - 5 - 8 < 1 then (imm.extractLsb' 11 1).getLsbD (i - 7 - 5 - 8)
    else if i - 7 - 5 - 8 - 1 < 10 then (imm.extractLsb' 1 10).getLsbD (i - 7 - 5 - 8 - 1)
    else (imm.extractLsb' 20 1).getLsbD (i - 7 - 5 - 8 - 1 - 10) := by
  unfold encJ
  simp only [BitVec.getLsbD_append]

theorem opcodeOf_encJ (opc : BitVec 7) (rd : RegIdx) (imm : Word) : opcodeOf (encJ opc rd imm) = opc := by
  apply BitVec.eq_of_getLsbD_eq; intro i hi
  interval_cases i <;> simp only [opcodeOf, encJ_bit, BitVec.getLsbD_extractLsb', Nat.reduceLT, Nat.reduceAdd, Nat.reduceSub, reduceIte, decide_true,
    Bool.true_and]

theorem rdOf_encJ (opc : BitVec 7) (rd : RegIdx) (imm : Word) : rdOf (encJ opc rd imm) = rd := by
  apply BitVec.eq_of_getLsbD_eq; intro i hi
  interval_cases i <;> simp only [rdOf, encJ_bit, BitVec.getLsbD_extractLsb', Nat.reduceLT, Nat.reduceAdd, Nat.reduceSub, reduceIte, decide_true,
    Bool.true_and]

/-! ## Immediates -/

theorem immI_encI (f3 : BitVec 3) (opc : BitVec 7) (rd rs1 : RegIdx) (imm : Word) (h : ImmIS imm) :
    immI (encI f3 opc rd rs1 imm) = imm := by
  refine Eq.trans ?_ h
  unfold immI
  congr 1
  apply BitVec.eq_of_getLsbD_eq; intro i hi
  interval_cases i <;> simp only [encI_bit, BitVec.getLsbD_extractLsb', Nat.reduceLT, Nat.reduceAdd, Nat.reduceSub, reduceIte, decide_true,
    Bool.true_and]

theorem immS_encS (f3 : BitVec 3) (opc : BitVec 7) (rs1 rs2 : RegIdx) (imm : Word) (h : ImmIS imm) :
    immS (encS f3 opc rs1 rs2 imm) = imm := by
  refine Eq.trans ?_ h
  unfold immS
  congr 1
  apply BitVec.eq_of_getLsbD_eq; intro i hi
  simp only [BitVec.getLsbD_append]
  interval_cases i <;> simp only [encS_bit, BitVec.getLsbD_extractLsb', Nat.reduceLT, Nat.reduceAdd, Nat.reduceSub, reduceIte, decide_true,
    Bool.true_and]

theorem immB_encB (f3 : BitVec 3) (opc : BitVec 7) (rs1 rs2 : RegIdx) (imm : Word) (h : ImmB imm) :
    immB (encB f3 opc rs1 rs2 imm) = imm := by
  refine Eq.trans ?_ h.1
  unfold immB
  congr 1
  apply BitVec.eq_of_getLsbD_eq; intro i hi
  have h0 := congrArg (BitVec.getLsbD · 0) h.2
  simp only [BitVec.getLsbD_extractLsb', Nat.reduceLT, Nat.reduceAdd, decide_true, Bool.true_and] at h0
  simp only [BitVec.getLsbD_append]
  interval_cases i <;> simp only [encB_bit, BitVec.getLsbD_extractLsb', BitVec.getLsbD_zero, Nat.reduceLT, Nat.reduceAdd,
    Nat.reduceSub, reduceIte, decide_true, Bool.true_and, h0]
  rfl

theorem immJ_encJ (opc : BitVec 7) (rd : RegIdx) (imm : Word) (h : ImmJ imm) :
    immJ (encJ opc rd imm) = imm := by
  refine Eq.trans ?_ h.1
  unfold immJ
  congr 1
  apply BitVec.eq_of_getLsbD_eq; intro i hi
  have h0 := congrArg (BitVec.getLsbD · 0) h.2
  simp only [BitVec.getLsbD_extractLsb', Nat.reduceLT, Nat.reduceAdd, decide_true, Bool.true_and] at h0
  simp only [BitVec.getLsbD_append]
  interval_cases i <;> simp only [encJ_bit, BitVec.getLsbD_extractLsb', BitVec.getLsbD_zero, Nat.reduceLT, Nat.reduceAdd,
    Nat.reduceSub, reduceIte, decide_true, Bool.true_and, h0]
  rfl

theorem immU_encU (opc : BitVec 7) (rd : RegIdx) (imm : Word) (h : ImmU imm) : immU (encU opc rd imm) = imm := by
  apply BitVec.eq_of_getLsbD_eq; intro i hi
  rw [immU, BitVec.getLsbD_append]
  split
  · rename_i hl
    have := congrArg (BitVec.getLsbD · i) h
    simp only [BitVec.getLsbD_extractLsb', hl, decide_true, Bool.true_and, Nat.zero_add] at this
    rw [this]
    rfl
  · rename_i hl
    simp only [BitVec.getLsbD_extractLsb', encU_bit, show i - 12 < 20 by omega, decide_true, Bool.true_and]
    simp only [show ¬ (12 + (i - 12) < 7) by omega, show ¬ (12 + (i - 12) - 7 < 5) by omega, if_false,
      show 12 + (i - 12) - 7 - 5 = i - 12 by omega, show i - 12 < 20 by omega, decide_true, Bool.true_and]
    congr 1
    omega

/-- The bits the shift-immediates are told apart by (R124). -/
theorem funct7Of_encI (f3 : BitVec 3) (opc : BitVec 7) (rd rs1 : RegIdx) (imm : Word) :
    funct7Of (encI f3 opc rd rs1 imm) = imm.extractLsb' 5 7 := by
  apply BitVec.eq_of_getLsbD_eq; intro i hi
  interval_cases i <;> simp only [funct7Of, encI_bit, BitVec.getLsbD_extractLsb', Nat.reduceLT, Nat.reduceAdd, Nat.reduceSub, reduceIte, decide_true,
    Bool.true_and]

/-! ## Masks of the instruction list -/

theorem encR_mask (f7 : BitVec 7) (f3 : BitVec 3) (opc : BitVec 7) (rd rs1 rs2 : RegIdx) :
    encR f7 f3 opc rd rs1 rs2 &&& 0xFE00707F#32 = f7 ++ 0#10 ++ f3 ++ 0#5 ++ opc := by
  apply BitVec.eq_of_getLsbD_eq; intro i hi
  rw [BitVec.getLsbD_and, encR_bit]
  simp only [BitVec.getLsbD_append]
  interval_cases i <;> simp only [BitVec.getLsbD_zero, BitVec.reduceGetLsb, Nat.reduceLT, Nat.reduceSub, reduceIte,
    Bool.and_true, Bool.and_false]

theorem encI_mask (f3 : BitVec 3) (opc : BitVec 7) (rd rs1 : RegIdx) (imm : Word) :
    encI f3 opc rd rs1 imm &&& 0x0000707F#32 = 0#17 ++ f3 ++ 0#5 ++ opc := by
  apply BitVec.eq_of_getLsbD_eq; intro i hi
  rw [BitVec.getLsbD_and, encI_bit]
  simp only [BitVec.getLsbD_append]
  interval_cases i <;> simp only [BitVec.getLsbD_zero, BitVec.reduceGetLsb, Nat.reduceLT, Nat.reduceSub, reduceIte,
    Bool.and_true, Bool.and_false]

theorem encI_shiftMask (f3 : BitVec 3) (opc : BitVec 7) (rd rs1 : RegIdx) (imm : Word) :
    encI f3 opc rd rs1 imm &&& 0xFE00707F#32 = imm.extractLsb' 5 7 ++ 0#10 ++ f3 ++ 0#5 ++ opc := by
  apply BitVec.eq_of_getLsbD_eq; intro i hi
  rw [BitVec.getLsbD_and, encI_bit]
  simp only [BitVec.getLsbD_append]
  interval_cases i <;> simp only [BitVec.getLsbD_zero, BitVec.reduceGetLsb, Nat.reduceLT, Nat.reduceSub, reduceIte,
    Bool.and_true, Bool.and_false, BitVec.getLsbD_extractLsb', Nat.reduceAdd,
    decide_true, Bool.true_and]

theorem encS_mask (f3 : BitVec 3) (opc : BitVec 7) (rs1 rs2 : RegIdx) (imm : Word) :
    encS f3 opc rs1 rs2 imm &&& 0x0000707F#32 = 0#17 ++ f3 ++ 0#5 ++ opc := by
  apply BitVec.eq_of_getLsbD_eq; intro i hi
  rw [BitVec.getLsbD_and, encS_bit]
  simp only [BitVec.getLsbD_append]
  interval_cases i <;> simp only [BitVec.getLsbD_zero, BitVec.reduceGetLsb, Nat.reduceLT, Nat.reduceSub, reduceIte,
    Bool.and_true, Bool.and_false]

theorem encB_mask (f3 : BitVec 3) (opc : BitVec 7) (rs1 rs2 : RegIdx) (imm : Word) :
    encB f3 opc rs1 rs2 imm &&& 0x0000707F#32 = 0#17 ++ f3 ++ 0#5 ++ opc := by
  apply BitVec.eq_of_getLsbD_eq; intro i hi
  rw [BitVec.getLsbD_and, encB_bit]
  simp only [BitVec.getLsbD_append]
  interval_cases i <;> simp only [BitVec.getLsbD_zero, BitVec.reduceGetLsb, Nat.reduceLT, Nat.reduceSub, reduceIte,
    Bool.and_true, Bool.and_false]

theorem encU_mask (opc : BitVec 7) (rd : RegIdx) (imm : Word) :
    encU opc rd imm &&& 0x0000007F#32 = 0#25 ++ opc := by
  apply BitVec.eq_of_getLsbD_eq; intro i hi
  rw [BitVec.getLsbD_and, encU_bit]
  simp only [BitVec.getLsbD_append]
  interval_cases i <;> simp only [BitVec.getLsbD_zero, BitVec.reduceGetLsb, Nat.reduceLT, Nat.reduceSub, reduceIte,
    Bool.and_true, Bool.and_false]

theorem encJ_mask (opc : BitVec 7) (rd : RegIdx) (imm : Word) :
    encJ opc rd imm &&& 0x0000007F#32 = 0#25 ++ opc := by
  apply BitVec.eq_of_getLsbD_eq; intro i hi
  rw [BitVec.getLsbD_and, encJ_bit]
  simp only [BitVec.getLsbD_append]
  interval_cases i <;> simp only [BitVec.getLsbD_zero, BitVec.reduceGetLsb, Nat.reduceLT, Nat.reduceSub, reduceIte,
    Bool.and_true, Bool.and_false]

end Sys2Proof
end

