-- ==== Sys2Proof/Laws/Decode.lean ====
section
/-!
SUPPORT. What the decoder can answer, said once: the fields and fixed bits of every word it takes for an instruction, and
that each format's fields put the word together again.
-/

namespace Sys2Proof

/-- The word `w` has the fixed bits of the instruction `i` (R121 to R131) and `i` has the fields of `w`. -/
def Spells (w : Word) : Instr → Prop
  | .lui rd imm => opcodeOf w = 0b0110111 ∧ rd = rdOf w ∧ imm = immU w
  | .auipc rd imm => opcodeOf w = 0b0010111 ∧ rd = rdOf w ∧ imm = immU w
  | .jal rd imm => opcodeOf w = 0b1101111 ∧ rd = rdOf w ∧ imm = immJ w
  | .jalr rd rs1 imm => opcodeOf w = 0b1100111 ∧ funct3Of w = 0b000 ∧ rd = rdOf w ∧ rs1 = rs1Of w ∧ imm = immI w
  | .beq rs1 rs2 imm => opcodeOf w = 0b1100011 ∧ funct3Of w = 0b000 ∧ rs1 = rs1Of w ∧ rs2 = rs2Of w ∧ imm = immB w
  | .bne rs1 rs2 imm => opcodeOf w = 0b1100011 ∧ funct3Of w = 0b001 ∧ rs1 = rs1Of w ∧ rs2 = rs2Of w ∧ imm = immB w
  | .blt rs1 rs2 imm => opcodeOf w = 0b1100011 ∧ funct3Of w = 0b100 ∧ rs1 = rs1Of w ∧ rs2 = rs2Of w ∧ imm = immB w
  | .bge rs1 rs2 imm => opcodeOf w = 0b1100011 ∧ funct3Of w = 0b101 ∧ rs1 = rs1Of w ∧ rs2 = rs2Of w ∧ imm = immB w
  | .bltu rs1 rs2 imm => opcodeOf w = 0b1100011 ∧ funct3Of w = 0b110 ∧ rs1 = rs1Of w ∧ rs2 = rs2Of w ∧ imm = immB w
  | .bgeu rs1 rs2 imm => opcodeOf w = 0b1100011 ∧ funct3Of w = 0b111 ∧ rs1 = rs1Of w ∧ rs2 = rs2Of w ∧ imm = immB w
  | .lb rd rs1 imm => opcodeOf w = 0b0000011 ∧ funct3Of w = 0b000 ∧ rd = rdOf w ∧ rs1 = rs1Of w ∧ imm = immI w
  | .lh rd rs1 imm => opcodeOf w = 0b0000011 ∧ funct3Of w = 0b001 ∧ rd = rdOf w ∧ rs1 = rs1Of w ∧ imm = immI w
  | .lw rd rs1 imm => opcodeOf w = 0b0000011 ∧ funct3Of w = 0b010 ∧ rd = rdOf w ∧ rs1 = rs1Of w ∧ imm = immI w
  | .lbu rd rs1 imm => opcodeOf w = 0b0000011 ∧ funct3Of w = 0b100 ∧ rd = rdOf w ∧ rs1 = rs1Of w ∧ imm = immI w
  | .lhu rd rs1 imm => opcodeOf w = 0b0000011 ∧ funct3Of w = 0b101 ∧ rd = rdOf w ∧ rs1 = rs1Of w ∧ imm = immI w
  | .sb rs1 rs2 imm => opcodeOf w = 0b0100011 ∧ funct3Of w = 0b000 ∧ rs1 = rs1Of w ∧ rs2 = rs2Of w ∧ imm = immS w
  | .sh rs1 rs2 imm => opcodeOf w = 0b0100011 ∧ funct3Of w = 0b001 ∧ rs1 = rs1Of w ∧ rs2 = rs2Of w ∧ imm = immS w
  | .sw rs1 rs2 imm => opcodeOf w = 0b0100011 ∧ funct3Of w = 0b010 ∧ rs1 = rs1Of w ∧ rs2 = rs2Of w ∧ imm = immS w
  | .addi rd rs1 imm => opcodeOf w = 0b0010011 ∧ funct3Of w = 0b000 ∧ rd = rdOf w ∧ rs1 = rs1Of w ∧ imm = immI w
  | .slti rd rs1 imm => opcodeOf w = 0b0010011 ∧ funct3Of w = 0b010 ∧ rd = rdOf w ∧ rs1 = rs1Of w ∧ imm = immI w
  | .sltiu rd rs1 imm => opcodeOf w = 0b0010011 ∧ funct3Of w = 0b011 ∧ rd = rdOf w ∧ rs1 = rs1Of w ∧ imm = immI w
  | .xori rd rs1 imm => opcodeOf w = 0b0010011 ∧ funct3Of w = 0b100 ∧ rd = rdOf w ∧ rs1 = rs1Of w ∧ imm = immI w
  | .ori rd rs1 imm => opcodeOf w = 0b0010011 ∧ funct3Of w = 0b110 ∧ rd = rdOf w ∧ rs1 = rs1Of w ∧ imm = immI w
  | .andi rd rs1 imm => opcodeOf w = 0b0010011 ∧ funct3Of w = 0b111 ∧ rd = rdOf w ∧ rs1 = rs1Of w ∧ imm = immI w
  | .slli rd rs1 imm =>
    opcodeOf w = 0b0010011 ∧ funct3Of w = 0b001 ∧ funct7Of w = 0b0000000 ∧ rd = rdOf w ∧ rs1 = rs1Of w ∧ imm = immI w
  | .srli rd rs1 imm =>
    opcodeOf w = 0b0010011 ∧ funct3Of w = 0b101 ∧ funct7Of w = 0b0000000 ∧ rd = rdOf w ∧ rs1 = rs1Of w ∧ imm = immI w
  | .srai rd rs1 imm =>
    opcodeOf w = 0b0010011 ∧ funct3Of w = 0b101 ∧ funct7Of w = 0b0100000 ∧ rd = rdOf w ∧ rs1 = rs1Of w ∧ imm = immI w
  | .add rd rs1 rs2 =>
    opcodeOf w = 0b0110011 ∧ funct3Of w = 0b000 ∧ funct7Of w = 0b0000000 ∧ rd = rdOf w ∧ rs1 = rs1Of w ∧ rs2 = rs2Of w
  | .sub rd rs1 rs2 =>
    opcodeOf w = 0b0110011 ∧ funct3Of w = 0b000 ∧ funct7Of w = 0b0100000 ∧ rd = rdOf w ∧ rs1 = rs1Of w ∧ rs2 = rs2Of w
  | .sll rd rs1 rs2 =>
    opcodeOf w = 0b0110011 ∧ funct3Of w = 0b001 ∧ funct7Of w = 0b0000000 ∧ rd = rdOf w ∧ rs1 = rs1Of w ∧ rs2 = rs2Of w
  | .slt rd rs1 rs2 =>
    opcodeOf w = 0b0110011 ∧ funct3Of w = 0b010 ∧ funct7Of w = 0b0000000 ∧ rd = rdOf w ∧ rs1 = rs1Of w ∧ rs2 = rs2Of w
  | .sltu rd rs1 rs2 =>
    opcodeOf w = 0b0110011 ∧ funct3Of w = 0b011 ∧ funct7Of w = 0b0000000 ∧ rd = rdOf w ∧ rs1 = rs1Of w ∧ rs2 = rs2Of w
  | .xor rd rs1 rs2 =>
    opcodeOf w = 0b0110011 ∧ funct3Of w = 0b100 ∧ funct7Of w = 0b0000000 ∧ rd = rdOf w ∧ rs1 = rs1Of w ∧ rs2 = rs2Of w
  | .srl rd rs1 rs2 =>
    opcodeOf w = 0b0110011 ∧ funct3Of w = 0b101 ∧ funct7Of w = 0b0000000 ∧ rd = rdOf w ∧ rs1 = rs1Of w ∧ rs2 = rs2Of w
  | .sra rd rs1 rs2 =>
    opcodeOf w = 0b0110011 ∧ funct3Of w = 0b101 ∧ funct7Of w = 0b0100000 ∧ rd = rdOf w ∧ rs1 = rs1Of w ∧ rs2 = rs2Of w
  | .or rd rs1 rs2 =>
    opcodeOf w = 0b0110011 ∧ funct3Of w = 0b110 ∧ funct7Of w = 0b0000000 ∧ rd = rdOf w ∧ rs1 = rs1Of w ∧ rs2 = rs2Of w
  | .and rd rs1 rs2 =>
    opcodeOf w = 0b0110011 ∧ funct3Of w = 0b111 ∧ funct7Of w = 0b0000000 ∧ rd = rdOf w ∧ rs1 = rs1Of w ∧ rs2 = rs2Of w
  | .fence rd rs1 imm => opcodeOf w = 0b0001111 ∧ funct3Of w = 0b000 ∧ rd = rdOf w ∧ rs1 = rs1Of w ∧ imm = immI w
  | .ecall => w = 0x00000073
  | .ebreak => w = 0x00100073

theorem decodeOp_spells {w : Word} {i : Instr} (ho : opcodeOf w = 0b0110011)
    (h : decodeOp (funct7Of w) (funct3Of w) (rdOf w) (rs1Of w) (rs2Of w) = some i) : Spells w i := by
  unfold decodeOp at h
  repeat' split at h
  all_goals first
    | exact (Option.some_ne_none _ h.symm).elim
    | (cases Option.some.inj h; refine ⟨ho, ?_, ‹_›, rfl, rfl, rfl⟩; first | assumption | bv_omega)

theorem decodeOpImm_spells {w : Word} {i : Instr} (ho : opcodeOf w = 0b0010011)
    (h : decodeOpImm (funct7Of w) (funct3Of w) (rdOf w) (rs1Of w) (immI w) = some i) : Spells w i := by
  unfold decodeOpImm at h
  repeat' split at h
  all_goals first
    | exact (Option.some_ne_none _ h.symm).elim
    | (cases Option.some.inj h; exact ⟨ho, ‹_›, rfl, rfl, rfl⟩)
    | (cases Option.some.inj h; refine ⟨ho, ?_, ‹_›, rfl, rfl, rfl⟩; first | assumption | bv_omega)

theorem decodeLoad_spells {w : Word} {i : Instr} (ho : opcodeOf w = 0b0000011)
    (h : decodeLoad (funct3Of w) (rdOf w) (rs1Of w) (immI w) = some i) : Spells w i := by
  unfold decodeLoad at h
  repeat' split at h
  all_goals first
    | exact (Option.some_ne_none _ h.symm).elim
    | (cases Option.some.inj h; exact ⟨ho, ‹_›, rfl, rfl, rfl⟩)

theorem decodeStore_spells {w : Word} {i : Instr} (ho : opcodeOf w = 0b0100011)
    (h : decodeStore (funct3Of w) (rs1Of w) (rs2Of w) (immS w) = some i) : Spells w i := by
  unfold decodeStore at h
  repeat' split at h
  all_goals first
    | exact (Option.some_ne_none _ h.symm).elim
    | (cases Option.some.inj h; exact ⟨ho, ‹_›, rfl, rfl, rfl⟩)

theorem decodeBranch_spells {w : Word} {i : Instr} (ho : opcodeOf w = 0b1100011)
    (h : decodeBranch (funct3Of w) (rs1Of w) (rs2Of w) (immB w) = some i) : Spells w i := by
  unfold decodeBranch at h
  repeat' split at h
  all_goals first
    | exact (Option.some_ne_none _ h.symm).elim
    | (cases Option.some.inj h; exact ⟨ho, ‹_›, rfl, rfl, rfl⟩)

theorem decodeSystem_spells {w : Word} {i : Instr} (h : decodeSystem w = some i) : Spells w i := by
  unfold decodeSystem at h
  repeat' split at h
  all_goals first
    | exact (Option.some_ne_none _ h.symm).elim
    | (cases Option.some.inj h; assumption)

/-- Everything the decoder can answer. -/
theorem decode_spells {w : Word} {i : Instr} (h : decode w = .ok i) : Spells w i := by
  have h : select w = some i := by
    unfold decode at h
    split at h
    · cases h; assumption
    · cases h
  unfold select at h
  simp only at h
  split at h; · cases Option.some.inj h; exact ⟨‹_›, rfl, rfl⟩
  split at h; · cases Option.some.inj h; exact ⟨‹_›, rfl, rfl⟩
  split at h; · cases Option.some.inj h; exact ⟨‹_›, rfl, rfl⟩
  split at h
  · split at h
    · cases Option.some.inj h; exact ⟨‹_›, ‹_›, rfl, rfl, rfl⟩
    · cases h
  split at h; · exact decodeBranch_spells ‹_› h
  split at h; · exact decodeLoad_spells ‹_› h
  split at h; · exact decodeStore_spells ‹_› h
  split at h; · exact decodeOpImm_spells ‹_› h
  split at h; · exact decodeOp_spells ‹_› h
  split at h
  · split at h
    · cases Option.some.inj h; exact ⟨‹_›, ‹_›, rfl, rfl, rfl⟩
    · cases h
  split at h; · exact decodeSystem_spells h
  cases h

/-! ## Each format put together again from the fields of a word -/

theorem encR_of_fields (w : Word) :
    encR (funct7Of w) (funct3Of w) (opcodeOf w) (rdOf w) (rs1Of w) (rs2Of w) = w := by
  apply BitVec.eq_of_getLsbD_eq; intro i hi
  rw [encR_bit]
  interval_cases i <;> simp only [opcodeOf, rdOf, funct3Of, rs1Of, rs2Of, funct7Of, BitVec.getLsbD_extractLsb', Nat.reduceLT, Nat.reduceAdd, Nat.reduceSub,
    reduceIte, decide_true, Bool.true_and]

theorem immI_low (w : Word) : (immI w).extractLsb' 0 12 = w.extractLsb' 20 12 := by
  apply BitVec.eq_of_getLsbD_eq; intro i hi
  simp only [immI, BitVec.getLsbD_extractLsb', BitVec.getLsbD_signExtend, hi, show i < 32 by omega, Nat.zero_add,
    decide_true, Bool.true_and, if_true]

theorem encI_of_fields (w : Word) : encI (funct3Of w) (opcodeOf w) (rdOf w) (rs1Of w) (immI w) = w := by
  apply BitVec.eq_of_getLsbD_eq; intro i hi
  rw [encI_bit, immI_low]
  interval_cases i <;> simp only [opcodeOf, rdOf, funct3Of, rs1Of, BitVec.getLsbD_extractLsb', Nat.reduceLT, Nat.reduceAdd, Nat.reduceSub,
    reduceIte, decide_true, Bool.true_and]

theorem immS_bit (w : Word) (i : Nat) (hi : i < 12) :
    (immS w).getLsbD i = if i < 5 then w.getLsbD (7 + i) else w.getLsbD (20 + i) := by
  simp only [immS, BitVec.getLsbD_signExtend, BitVec.getLsbD_append, BitVec.getLsbD_extractLsb']
  interval_cases i <;> simp

theorem encS_of_fields (w : Word) : encS (funct3Of w) (opcodeOf w) (rs1Of w) (rs2Of w) (immS w) = w := by
  apply BitVec.eq_of_getLsbD_eq; intro i hi
  rw [encS_bit]
  interval_cases i <;> simp only [opcodeOf, funct3Of, rs1Of, rs2Of, BitVec.getLsbD_extractLsb', immS_bit, Nat.reduceLT, Nat.reduceAdd, Nat.reduceSub,
    reduceIte, decide_true, Bool.true_and]

theorem immB_bit (w : Word) (i : Nat) (hi : i < 13) :
    (immB w).getLsbD i = if i = 0 then false else if i < 5 then w.getLsbD (7 + i)
      else if i < 11 then w.getLsbD (20 + i) else if i = 11 then w.getLsbD 7 else w.getLsbD 31 := by
  simp only [immB, BitVec.getLsbD_signExtend, BitVec.getLsbD_append, BitVec.getLsbD_extractLsb']
  interval_cases i <;> simp

theorem encB_of_fields (w : Word) : encB (funct3Of w) (opcodeOf w) (rs1Of w) (rs2Of w) (immB w) = w := by
  apply BitVec.eq_of_getLsbD_eq; intro i hi
  rw [encB_bit]
  interval_cases i <;> simp only [opcodeOf, funct3Of, rs1Of, rs2Of, BitVec.getLsbD_extractLsb', immB_bit, Nat.reduceLT, Nat.reduceAdd, Nat.reduceSub,
    Nat.reduceEqDiff, reduceIte, decide_true, Bool.true_and]

theorem immU_bit (w : Word) (i : Nat) (hi : i < 32) : (immU w).getLsbD i = if i < 12 then false else w.getLsbD i := by
  unfold immU
  simp only [BitVec.getLsbD_append]
  split
  · simp
  · rw [BitVec.getLsbD_extractLsb', show 12 + (i - 12) = i by omega, decide_eq_true (by omega), Bool.true_and]

theorem encU_of_fields (w : Word) : encU (opcodeOf w) (rdOf w) (immU w) = w := by
  apply BitVec.eq_of_getLsbD_eq; intro i hi
  rw [encU_bit]
  interval_cases i <;> simp only [opcodeOf, rdOf, BitVec.getLsbD_extractLsb', immU_bit, Nat.reduceLT, Nat.reduceAdd, Nat.reduceSub,
    reduceIte, decide_true, Bool.true_and]

theorem immJ_bit (w : Word) (i : Nat) (hi : i < 21) :
    (immJ w).getLsbD i = if i = 0 then false else if i < 11 then w.getLsbD (20 + i)
      else if i = 11 then w.getLsbD 20 else if i < 20 then w.getLsbD i else w.getLsbD 31 := by
  simp only [immJ, BitVec.getLsbD_signExtend, BitVec.getLsbD_append, BitVec.getLsbD_extractLsb']
  interval_cases i <;> simp

theorem encJ_of_fields (w : Word) : encJ (opcodeOf w) (rdOf w) (immJ w) = w := by
  apply BitVec.eq_of_getLsbD_eq; intro i hi
  rw [encJ_bit]
  interval_cases i <;> simp only [opcodeOf, rdOf, BitVec.getLsbD_extractLsb', immJ_bit, Nat.reduceLT, Nat.reduceAdd, Nat.reduceSub,
    Nat.reduceEqDiff, reduceIte, decide_true, Bool.true_and]

/-! ## Each immediate of a word is one its format can spell -/

theorem immI_fits (w : Word) : ImmIS (immI w) := by
  rw [ImmIS, immI_low]; rfl

theorem immS_fits (w : Word) : ImmIS (immS w) := by
  apply BitVec.eq_of_getLsbD_eq; intro i hi
  simp only [immS, BitVec.getLsbD_signExtend, BitVec.getLsbD_append, BitVec.getLsbD_extractLsb', BitVec.msb_eq_getLsbD_last]
  interval_cases i <;> simp

theorem immB_fits (w : Word) : ImmB (immB w) := by
  refine ⟨?_, ?_⟩ <;> apply BitVec.eq_of_getLsbD_eq <;> intro i hi <;>
  simp only [immB, BitVec.getLsbD_signExtend, BitVec.getLsbD_append, BitVec.getLsbD_extractLsb', BitVec.msb_eq_getLsbD_last] <;>
  interval_cases i <;> simp

theorem immJ_fits (w : Word) : ImmJ (immJ w) := by
  refine ⟨?_, ?_⟩ <;> apply BitVec.eq_of_getLsbD_eq <;> intro i hi <;>
  simp only [immJ, BitVec.getLsbD_signExtend, BitVec.getLsbD_append, BitVec.getLsbD_extractLsb', BitVec.msb_eq_getLsbD_last] <;>
  interval_cases i <;> simp

theorem immU_fits (w : Word) : ImmU (immU w) := by
  apply BitVec.eq_of_getLsbD_eq; intro i hi
  rw [BitVec.getLsbD_extractLsb', immU_bit _ _ (by omega), if_pos (by omega)]
  simp

end Sys2Proof
end

