-- ==== Sys2Proof/Laws/State.lean ====
section
/-!
SUPPORT. What each update of the state does to each field, and the register file's laws.
-/

namespace Sys2Proof.Machine

@[simp] theorem State.setPc_x (s : State) (p : Word) : (s.setPc p).x = s.x := rfl
@[simp] theorem State.setPc_pc (s : State) (p : Word) : (s.setPc p).pc = p := rfl
@[simp] theorem State.setPc_mem (s : State) (p : Word) : (s.setPc p).mem = s.mem := rfl
@[simp] theorem State.setPc_run (s : State) (p : Word) : (s.setPc p).run = s.run := rfl
@[simp] theorem State.setPc_params (s : State) (p : Word) : (s.setPc p).params = s.params := rfl
@[simp] theorem State.setPc_readReg (s : State) (p : Word) (q : RegIdx) : (s.setPc p).readReg q = s.readReg q := rfl

@[simp] theorem State.setMem_x (s : State) (m : Memory) : (s.setMem m).x = s.x := rfl
@[simp] theorem State.setMem_pc (s : State) (m : Memory) : (s.setMem m).pc = s.pc := rfl
@[simp] theorem State.setMem_mem (s : State) (m : Memory) : (s.setMem m).mem = m := rfl
@[simp] theorem State.setMem_run (s : State) (m : Memory) : (s.setMem m).run = s.run := rfl
@[simp] theorem State.setMem_params (s : State) (m : Memory) : (s.setMem m).params = s.params := rfl
@[simp] theorem State.setMem_readReg (s : State) (m : Memory) (q : RegIdx) : (s.setMem m).readReg q = s.readReg q := rfl

@[simp] theorem State.setRun_x (s : State) (r : RunState) : (s.setRun r).x = s.x := rfl
@[simp] theorem State.setRun_pc (s : State) (r : RunState) : (s.setRun r).pc = s.pc := rfl
@[simp] theorem State.setRun_mem (s : State) (r : RunState) : (s.setRun r).mem = s.mem := rfl
@[simp] theorem State.setRun_run (s : State) (r : RunState) : (s.setRun r).run = r := rfl
@[simp] theorem State.setRun_params (s : State) (r : RunState) : (s.setRun r).params = s.params := rfl
@[simp] theorem State.setRun_readReg (s : State) (r : RunState) (q : RegIdx) : (s.setRun r).readReg q = s.readReg q := rfl

@[simp] theorem State.writeReg_pc (s : State) (r : RegIdx) (v : Word) : (s.writeReg r v).pc = s.pc := by
  unfold State.writeReg; split <;> rfl
@[simp] theorem State.writeReg_mem (s : State) (r : RegIdx) (v : Word) : (s.writeReg r v).mem = s.mem := by
  unfold State.writeReg; split <;> rfl
@[simp] theorem State.writeReg_run (s : State) (r : RegIdx) (v : Word) : (s.writeReg r v).run = s.run := by
  unfold State.writeReg; split <;> rfl
@[simp] theorem State.writeReg_params (s : State) (r : RegIdx) (v : Word) : (s.writeReg r v).params = s.params := by
  unfold State.writeReg; split <;> rfl

/-- Two registers other than x0 share a slot only if they are one register. -/
theorem regSlot_inj {r q : RegIdx} (hr : r ≠ 0#5) (hq : q ≠ 0#5) (h : regSlot r = regSlot q) : r = q := by
  have hr' : r.toNat ≠ 0 := fun e => hr (BitVec.eq_of_toNat_eq e)
  have hq' : q.toNat ≠ 0 := fun e => hq (BitVec.eq_of_toNat_eq e)
  have h' : r.toNat - 1 = q.toNat - 1 := congrArg Fin.val h
  exact BitVec.eq_of_toNat_eq (by omega)

/-- Everything a register write does to the reads after it (R31, R32). -/
theorem State.readReg_writeReg (s : State) (r q : RegIdx) (v : Word) :
    (s.writeReg r v).readReg q = if q = r ∧ r ≠ 0#5 then v else s.readReg q := by
  unfold State.writeReg
  by_cases hr : r = 0#5
  · simp [hr]
  by_cases hq : q = 0#5
  · simp [State.readReg, hr, hq, Ne.symm hr]
  by_cases e : q = r
  · simp [State.readReg, hr, e]
  · have ne : (regSlot r).val ≠ (regSlot q).val := fun h => e (regSlot_inj hr hq (Fin.ext h)).symm
    simp [State.readReg, hr, hq, e, ne]

/-- x0 reads 0 in every state (R33). -/
@[simp] theorem State.readReg_zero (s : State) : s.readReg 0#5 = 0#32 := rfl

/-- Equal in every field is equal. -/
theorem State.ext_fields {s t : State} (hx : s.x = t.x) (hp : s.pc = t.pc) (hm : s.mem = t.mem) (hr : s.run = t.run)
    (hq : s.params = t.params) : s = t := by
  cases s; cases t; simp_all

end Sys2Proof.Machine
end

