-- ==== Sys2Proof/Laws/Memory.lean ====
section
/-!
SUPPORT. The laws of memory: what a byte write does to every byte's read, that every operation keeps the canonical form
and the valid range, and what the little-endian reads and writes are made of.
-/

namespace Sys2Proof.Machine

/-- An address below every listed one reads as an unlisted byte. -/
theorem Memory.readByte_unlisted {m : Memory} {a : Nat} (h : ∀ c ∈ m, a ≠ c.1) :
    Memory.readByte m a = Config.unlistedByte := by
  induction m with
  | nil => rfl
  | cons c m ih =>
    have hc : a ≠ c.1 := h c (by simp)
    simp only [Memory.readByte, hc, if_false]
    exact ih fun d hd => h d (by simp [hd])

/-- A write leaves every other address alone, whatever the memory's form. -/
theorem Memory.readByte_writeByte_ne (m : Memory) {a b : Nat} (v : Byte) (h : b ≠ a) :
    Memory.readByte (Memory.writeByte m a v) b = Memory.readByte m b := by
  induction m with
  | nil => unfold Memory.writeByte; split <;> simp [Memory.readByte, h]
  | cons c m ih =>
    unfold Memory.writeByte
    repeat' split
    all_goals first
      | rfl
      | (simp only [Memory.readByte, ih]; done)
      | simp_all [Memory.readByte]

/-- A read after a write to the same address gives the byte written. -/
theorem Memory.readByte_writeByte_same {m : Memory} (hm : m.wf) (a : Nat) (v : Byte) :
    Memory.readByte (Memory.writeByte m a v) a = v := by
  induction m with
  | nil => unfold Memory.writeByte; split <;> simp_all [Memory.readByte]
  | cons c m ih =>
    obtain ⟨hs, hv⟩ := hm
    rw [List.pairwise_cons] at hs
    have ih := ih ⟨hs.2, fun d hd => hv d (by simp [hd])⟩
    unfold Memory.writeByte
    split
    · rename_i hlt
      split
      · rename_i e
        rw [e, Memory.readByte_unlisted]
        intro d hd
        rcases List.mem_cons.1 hd with rfl | hd
        · exact Nat.ne_of_lt hlt
        · exact Nat.ne_of_lt (Nat.lt_trans hlt (hs.1 d hd))
      · simp [Memory.readByte]
    · split
      · rename_i e
        split
        · rename_i ev
          rw [ev, Memory.readByte_unlisted]
          intro d hd
          rw [e]
          exact Nat.ne_of_lt (hs.1 d hd)
        · simp [Memory.readByte]
      · rename_i ne
        simp [Memory.readByte, ne, ih]

/-- What a write lists: what was listed, and the byte written. -/
theorem Memory.mem_writeByte {m : Memory} {a : Nat} {v : Byte} {c : Host.Cell} (h : c ∈ Memory.writeByte m a v) :
    c ∈ m ∨ (c = (a, v) ∧ v ≠ Config.unlistedByte) := by
  induction m with
  | nil => unfold Memory.writeByte at h; split at h <;> simp_all
  | cons d m ih =>
    unfold Memory.writeByte at h
    split at h <;> split at h
    · exact .inl h
    · rcases List.mem_cons.1 h with rfl | h
      · exact .inr ⟨rfl, ‹_›⟩
      · exact .inl h
    · split at h
      · exact .inl (by simp [h])
      · rcases List.mem_cons.1 h with rfl | h
        · exact .inr ⟨rfl, ‹_›⟩
        · exact .inl (by simp [h])
    · rcases List.mem_cons.1 h with rfl | h
      · exact .inl (by simp)
      · exact (ih h).imp (fun h => by simp [h]) id

/-- A write keeps the canonical form. -/
theorem Memory.writeByte_wf {m : Memory} (hm : m.wf) (a : Nat) (v : Byte) : Memory.wf (Memory.writeByte m a v) := by
  refine ⟨?_, fun c hc => ?_⟩
  · induction m with
    | nil => unfold Memory.writeByte; split <;> simp
    | cons d m ih =>
      obtain ⟨hs, hv⟩ := hm
      have hs' := List.pairwise_cons.1 hs
      have ih := ih ⟨hs'.2, fun d hd => hv d (by simp [hd])⟩
      unfold Memory.writeByte
      split <;> split
      · exact hs
      · refine List.pairwise_cons.2 ⟨fun c hc => ?_, hs⟩
        rcases List.mem_cons.1 hc with rfl | hc
        · assumption
        · exact Nat.lt_trans ‹_› (hs'.1 c hc)
      · rename_i e
        split
        · exact hs'.2
        · exact List.pairwise_cons.2 ⟨fun c hc => e ▸ hs'.1 c hc, hs'.2⟩
      · refine List.pairwise_cons.2 ⟨fun c hc => ?_, ih⟩
        rcases Memory.mem_writeByte hc with hc | ⟨rfl, -⟩
        · exact hs'.1 c hc
        · simp only; omega
  · rcases Memory.mem_writeByte hc with hc | ⟨rfl, hv⟩
    · exact hm.2 c hc
    · exact hv

/-- A multi-byte write keeps the canonical form. -/
theorem Memory.writeLE_wf {m : Memory} (hm : m.wf) (a : Nat) (v : Word) (n : Nat) : (m.writeLE a v n).wf := by
  induction n with
  | zero => exact hm
  | succ n ih => exact Memory.writeByte_wf ih _ _

/-- What a multi-byte write lists: what was listed, and addresses of the access. -/
theorem Memory.mem_writeLE {m : Memory} {a : Nat} {v : Word} {n : Nat} {c : Host.Cell} (h : c ∈ m.writeLE a v n) :
    c ∈ m ∨ (a ≤ c.1 ∧ c.1 < a + n) := by
  induction n with
  | zero => exact .inl h
  | succ n ih =>
    rcases Memory.mem_writeByte h with h | ⟨rfl, -⟩
    · exact (ih h).imp id fun h => ⟨h.1, by omega⟩
    · right; simp only; omega

/-- Outside the access a multi-byte write leaves every byte alone, whatever the memory's form. -/
theorem Memory.readByte_writeLE_outside (m : Memory) (a : Nat) (v : Word) (n : Nat) {b : Nat} (h : b < a ∨ a + n ≤ b) :
    (m.writeLE a v n).readByte b = m.readByte b := by
  induction n with
  | zero => rfl
  | succ n ih =>
    rw [Memory.writeLE, Memory.readByte_writeByte_ne _ _ (by omega), ih (by omega)]

/-- Inside the access each byte becomes its byte of the value, the least significant at the lowest address. -/
theorem Memory.readByte_writeLE_inside {m : Memory} (hm : m.wf) (a : Nat) (v : Word) (n : Nat) {k : Nat} (h : k < n) :
    (m.writeLE a v n).readByte (a + k) = byteOf v k := by
  induction n with
  | zero => omega
  | succ n ih =>
    rw [Memory.writeLE]
    by_cases e : k = n
    · rw [e, Memory.readByte_writeByte_same (Memory.writeLE_wf hm _ _ _)]
    · rw [Memory.readByte_writeByte_ne _ _ (by omega), ih (by omega)]

/-- Byte `k` of a multi-byte read is the byte at `a + k`. -/
theorem Memory.readLE_byte (m : Memory) (a n : Nat) {k : Nat} (h : k < n) :
    (m.readLE a n).extractLsb' (8 * k) 8 = m.readByte (a + k) := by
  induction n generalizing a k with
  | zero => omega
  | succ n ih =>
    apply BitVec.eq_of_getLsbD_eq
    intro i hi
    rw [BitVec.getLsbD_extractLsb', Memory.readLE, BitVec.getLsbD_append]
    cases k with
    | zero => simp [hi]
    | succ k =>
      have := congrArg (BitVec.getLsbD · i) (ih (a + 1) (by omega : k < n))
      simp only [BitVec.getLsbD_extractLsb', hi, decide_true, Bool.true_and] at this ⊢
      rw [if_neg (by omega), show 8 * (k + 1) + i - 8 = 8 * k + i by omega, this]
      congr 2
      omega

/-- A read of the bytes just written gives the low bits of the value written. -/
theorem Memory.readLE_writeLE {m : Memory} (hm : m.wf) (a : Nat) (v : Word) (n : Nat) :
    (m.writeLE a v n).readLE a n = v.setWidth (8 * n) := by
  apply BitVec.eq_of_getLsbD_eq
  intro i hi
  have h := congrArg (BitVec.getLsbD · (i % 8)) (Memory.readLE_byte (m.writeLE a v n) a n (k := i / 8) (by omega))
  simp only [Memory.readByte_writeLE_inside hm a v n (show i / 8 < n by omega), byteOf, BitVec.getLsbD_extractLsb',
    show 8 * (i / 8) + i % 8 = i by omega, show i % 8 < 8 by omega, decide_true, Bool.true_and] at h
  rw [h, BitVec.getLsbD_setWidth, decide_eq_true hi, Bool.true_and]

/-- A multi-byte read as a number: its first byte, and 256 times the rest. -/
theorem Memory.readLE_toNat (m : Memory) (a n : Nat) :
    (m.readLE a (n + 1)).toNat = (m.readByte a).toNat + 256 * (m.readLE (a + 1) n).toNat := by
  rw [Memory.readLE, BitVec.toNat_append, ← Nat.shiftLeft_add_eq_or_of_lt (m.readByte a).isLt, Nat.shiftLeft_eq]
  omega

/-- A byte of a Word as a number. -/
theorem byteOf_eq (v : Word) (k : Nat) : byteOf v k = BitVec.ofNat 8 (v.toNat / 256 ^ k) := by
  apply BitVec.eq_of_toNat_eq
  simp [byteOf, BitVec.extractLsb'_toNat, Nat.shiftRight_eq_div_pow, Nat.pow_mul]

/-- The executable bounds check is the rule's arithmetic (R72). -/
theorem inBounds_iff (p : Params) (a : Word) (n : Nat) :
    inBounds p a n = true ↔ p.memBase ≤ a.toNat ∧ a.toNat + n ≤ p.memBase + p.memSize := by
  simp [inBounds]

/-- The launch memory of `State.reset` is in its one form. -/
theorem Memory.reset_wf : State.reset.mem.wf := by decide

end Sys2Proof.Machine
end

