-- ==== Sys2Proof/Laws/Exec.lean ====
section
/-!
SUPPORT. What each shared operation can do, and from them what executing one instruction and one step can do, each said
once: every later proof about a step cites `exec_effect` or `step_effect` instead of unfolding an instruction.
-/

namespace Sys2Proof.Machine

/-! ## The shared operations -/

theorem continueAt_eq (npc : Word) (s : State) : continueAt npc s = .next (s.setPc npc) := rfl

theorem raise_eq (f : Fault) (s : State) : raise f s = .next (s.setRun (.faulted f s.pc)) := rfl

theorem halt_eq (c : Word) (s : State) : halt c s = .next (s.setRun (.halted c)) := rfl

theorem stay_eq (s : State) : stay s = .next s := rfl

theorem writeResult_eq (rd : RegIdx) (v : Word) (s : State) :
    writeResult rd v s = .next ((s.writeReg rd v).setPc (nextPc s)) := rfl

theorem linkAndJump_eq (rd : RegIdx) (target : Word) (s : State) :
    linkAndJump rd target s = .next ((s.writeReg rd (nextPc s)).setPc target) := rfl

theorem branchIf_eq (c : Bool) (imm : Word) (s : State) :
    branchIf c imm s = .next (s.setPc (if c then s.pc + imm else s.pc + 4)) := rfl

/-- A read in the range gives the bytes (R76). -/
theorem memRead_ok {s : State} {a : Word} {w : Width} (h : InRange s.params a w.bytes) :
    memRead s a w = .ok (s.mem.readLE a.toNat w.bytes) := by
  simp [memRead, (inBounds_iff _ _ _).2 h]

/-- A read outside the range is OutOfBounds (R76). -/
theorem memRead_error {s : State} {a : Word} {w : Width} (h : ¬ InRange s.params a w.bytes) :
    memRead s a w = .error (.outOfBounds a w) := by
  simp [memRead, mt (inBounds_iff _ _ _).1 h]

theorem loadInto_ok (rd : RegIdx) {ea : Word} {w : Width} (ext : BitVec (8 * w.bytes) → Word) {s : State}
    (h : InRange s.params ea w.bytes) :
    loadInto rd ea w ext s =
      .next ((s.writeReg rd (ext (s.mem.readLE ea.toNat w.bytes))).setPc (nextPc s)) := by
  simp [loadInto, memRead_ok h, writeResult_eq]

theorem loadInto_error (rd : RegIdx) {ea : Word} {w : Width} (ext : BitVec (8 * w.bytes) → Word) {s : State}
    (h : ¬ InRange s.params ea w.bytes) :
    loadInto rd ea w ext s = .next (s.setRun (.faulted (.outOfBounds ea w) s.pc)) := by
  simp [loadInto, memRead_error h, raise_eq]

theorem storeFrom_ok {ea : Word} {w : Width} (v : Word) {s : State} (h : InRange s.params ea w.bytes) :
    storeFrom ea w v s = .next ((s.setMem (s.mem.writeLE ea.toNat v w.bytes)).setPc (nextPc s)) := by
  simp [storeFrom, memWrite, (inBounds_iff _ _ _).2 h, continueAt_eq]

theorem storeFrom_error {ea : Word} {w : Width} (v : Word) {s : State} (h : ¬ InRange s.params ea w.bytes) :
    storeFrom ea w v s = .next (s.setRun (.faulted (.outOfBounds ea w) s.pc)) := by
  simp [storeFrom, memWrite, mt (inBounds_iff _ _ _).1 h, raise_eq]

theorem condEq_iff (a b : Word) : condEq a b = true ↔ a = b := by simp [condEq]

theorem condLtS_iff (a b : Word) : condLtS a b = true ↔ a.toInt < b.toInt := by
  simp [condLtS, BitVec.slt_iff_toInt_lt]

theorem condLtU_iff (a b : Word) : condLtU a b = true ↔ a.toNat < b.toNat := by
  simp [condLtU, BitVec.ult_iff_lt, BitVec.lt_def]

/-! ## One instruction -/

/-- Everything executing an instruction can do. -/
inductive ExecEffect (i : Instr) (s : State) : State → Prop
  | writes (rd : RegIdx) (v : Word) (hd : i.dest = some rd) (hs : storeAccess i s = none)
      (hl : ∀ a w, loadAccess i s = some (a, w) → InRange s.params a w.bytes) :
      ExecEffect i s ((s.writeReg rd v).setPc (nextPcTable i s))
  | stores (a : Word) (w : Width) (v : Word) (hd : i.dest = none) (hs : storeAccess i s = some (a, w))
      (hr : InRange s.params a w.bytes) :
      ExecEffect i s ((s.setMem (s.mem.writeLE a.toNat v w.bytes)).setPc (nextPcTable i s))
  | moves (hd : i.dest = none) (ha : dataAccess i s = none) (he : i ≠ .ecall) :
      ExecEffect i s (s.setPc (nextPcTable i s))
  | halts (he : i = .ecall) : ExecEffect i s (s.setRun (.halted (s.readReg s.params.exitReg)))
  | faults (a : Word) (w : Width) (ha : dataAccess i s = some (a, w)) (hr : ¬ InRange s.params a w.bytes) :
      ExecEffect i s (s.setRun (.faulted (.outOfBounds a w) s.pc))

/-- A load writes its register or faults. -/
theorem loadInto_effect {i : Instr} {s : State} {rd : RegIdx} {ea : Word} {w : Width}
    (ext : BitVec (8 * w.bytes) → Word) (hd : i.dest = some rd) (hs : storeAccess i s = none)
    (hl : loadAccess i s = some (ea, w)) (hp : nextPcTable i s = nextPc s) :
    ∃ t, loadInto rd ea w ext s = .next t ∧ ExecEffect i s t := by
  by_cases h : InRange s.params ea w.bytes
  · refine ⟨_, loadInto_ok rd ext h, hp ▸ .writes rd _ hd hs fun a w' e => ?_⟩
    rw [hl] at e
    cases e
    exact h
  · exact ⟨_, loadInto_error rd ext h, .faults ea w (by simp [dataAccess, hs, hl]) h⟩

/-- A store stores its bytes or faults. -/
theorem storeFrom_effect {i : Instr} {s : State} {ea : Word} {w : Width} (v : Word) (hd : i.dest = none)
    (hs : storeAccess i s = some (ea, w)) (hp : nextPcTable i s = nextPc s) :
    ∃ t, storeFrom ea w v s = .next t ∧ ExecEffect i s t := by
  by_cases h : InRange s.params ea w.bytes
  · exact ⟨_, storeFrom_ok v h, hp ▸ .stores ea w v hd hs h⟩
  · exact ⟨_, storeFrom_error v h, .faults ea w (by simp [dataAccess, hs]) h⟩

/-- A branch only moves the pc. -/
theorem branchIf_effect {i : Instr} {s : State} {c : Bool} {imm : Word} (hd : i.dest = none)
    (ha : dataAccess i s = none) (he : i ≠ .ecall)
    (hp : nextPcTable i s = if c then s.pc + imm else s.pc + 4) :
    ∃ t, branchIf c imm s = .next t ∧ ExecEffect i s t :=
  ⟨_, branchIf_eq c imm s, hp ▸ .moves hd ha he⟩

/-- An instruction with no data access that writes a register does so and moves to its NextPc. -/
theorem writes_effect {i : Instr} {s : State} {rd : RegIdx} {v p : Word} (hd : i.dest = some rd)
    (ha : dataAccess i s = none) (hp : nextPcTable i s = p) :
    ∃ t, Host.Outcome.next (φ := Fault) (ρ := Refusal) ((s.writeReg rd v).setPc p) = .next t ∧ ExecEffect i s t := by
  have hs : storeAccess i s = none := by
    unfold dataAccess at ha; split at ha <;> simp_all
  exact ⟨_, rfl, hp ▸ .writes rd v hd hs fun a w e => by simp [dataAccess, hs, e] at ha⟩

/-- Executing an instruction answers a next state, by one of the five effects. -/
theorem exec_effect (i : Instr) (s : State) : ∃ t, exec i s = .next t ∧ ExecEffect i s t := by
  cases i with
  | lb rd rs1 imm => exact loadInto_effect _ rfl rfl rfl rfl
  | lh rd rs1 imm => exact loadInto_effect _ rfl rfl rfl rfl
  | lw rd rs1 imm => exact loadInto_effect _ rfl rfl rfl rfl
  | lbu rd rs1 imm => exact loadInto_effect _ rfl rfl rfl rfl
  | lhu rd rs1 imm => exact loadInto_effect _ rfl rfl rfl rfl
  | sb rs1 rs2 imm => exact storeFrom_effect _ rfl rfl rfl
  | sh rs1 rs2 imm => exact storeFrom_effect _ rfl rfl rfl
  | sw rs1 rs2 imm => exact storeFrom_effect _ rfl rfl rfl
  | beq rs1 rs2 imm =>
    refine branchIf_effect (c := condEq (s.readReg rs1) (s.readReg rs2)) (imm := imm) rfl rfl (by simp) ?_
    simp only [nextPcTable, condEq_iff]
  | bne rs1 rs2 imm =>
    refine branchIf_effect (c := !condEq (s.readReg rs1) (s.readReg rs2)) (imm := imm) rfl rfl (by simp) ?_
    simp only [nextPcTable, Bool.not_eq_true', ← Bool.not_eq_true, condEq_iff, ne_eq]
  | blt rs1 rs2 imm =>
    refine branchIf_effect (c := condLtS (s.readReg rs1) (s.readReg rs2)) (imm := imm) rfl rfl (by simp) ?_
    simp only [nextPcTable, condLtS_iff]
  | bge rs1 rs2 imm =>
    refine branchIf_effect (c := !condLtS (s.readReg rs1) (s.readReg rs2)) (imm := imm) rfl rfl (by simp) ?_
    simp only [nextPcTable, Bool.not_eq_true', ← Bool.not_eq_true, condLtS_iff, not_lt]
  | bltu rs1 rs2 imm =>
    refine branchIf_effect (c := condLtU (s.readReg rs1) (s.readReg rs2)) (imm := imm) rfl rfl (by simp) ?_
    simp only [nextPcTable, condLtU_iff]
  | bgeu rs1 rs2 imm =>
    refine branchIf_effect (c := !condLtU (s.readReg rs1) (s.readReg rs2)) (imm := imm) rfl rfl (by simp) ?_
    simp only [nextPcTable, Bool.not_eq_true', ← Bool.not_eq_true, condLtU_iff, not_lt]
  | jal rd imm => exact writes_effect rfl rfl rfl
  | jalr rd rs1 imm => exact writes_effect rfl rfl rfl
  | fence rd rs1 imm => exact ⟨_, rfl, .moves rfl rfl (by simp)⟩
  | ebreak => exact ⟨_, rfl, .moves rfl rfl (by simp)⟩
  | ecall => exact ⟨_, rfl, .halts rfl⟩
  | _ => exact writes_effect rfl rfl rfl

/-! ## One step -/

/-- Everything a step can do. -/
inductive StepEffect (s : State) : State → Prop
  | stays (hr : s.run ≠ .running) : StepEffect s s
  | fetchFaults (f : Fault) (hr : s.run = .running) (hf : fetchInstr s = .error f) :
      StepEffect s (s.setRun (.faulted f s.pc))
  | executes (i : Instr) (t : State) (hr : s.run = .running) (hf : fetchInstr s = .ok i) (he : ExecEffect i s t) :
      StepEffect s t

/-- A step answers a next state, by one of the three effects. -/
theorem step_effect (s : State) : ∃ t, step s = .next t ∧ StepEffect s t := by
  unfold step
  cases hr : s.run with
  | halted c => exact ⟨s, rfl, .stays (by simp [hr])⟩
  | faulted f p => exact ⟨s, rfl, .stays (by simp [hr])⟩
  | running =>
    simp only
    cases hf : fetchInstr s with
    | error f => exact ⟨_, rfl, .fetchFaults f hr hf⟩
    | ok i =>
      obtain ⟨t, h, he⟩ := exec_effect i s
      exact ⟨t, h, .executes i t hr hf he⟩

/-- What a step that answered `t` did. -/
theorem step_inv {s t : State} (h : step s = .next t) : StepEffect s t := by
  obtain ⟨t', h', he⟩ := step_effect s
  rw [h] at h'
  cases h'
  exact he

/-- What an instruction that answered `t` did. -/
theorem exec_inv {i : Instr} {s t : State} (h : exec i s = .next t) : ExecEffect i s t := by
  obtain ⟨t', h', he⟩ := exec_effect i s
  rw [h] at h'
  cases h'
  exact he

/-- Fetching and decoding read only the pc, the memory and the range. -/
theorem fetchInstr_congr {s t : State} (hp : t.pc = s.pc) (hm : t.mem = s.mem) (hq : t.params = s.params) :
    fetchInstr t = fetchInstr s := by
  simp only [fetchInstr, fetchWord, memRead, hp, hm, hq]

/-- What fetching gives at an aligned pc in the range. -/
theorem fetchWord_ok {s : State} (ha : s.pc.extractLsb' 0 2 = 0#2) (hr : InRange s.params s.pc 4) :
    fetchWord s = .ok ((s.mem.readLE s.pc.toNat 4).setWidth 32) := by
  have := memRead_ok (s := s) (a := s.pc) (w := .word) hr
  simp only [fetchWord, ha, this, Width.bytes]
  rfl

/-- An instruction that was fetched was decoded from some word. -/
theorem decode_of_fetchInstr {s : State} {i : Instr} (h : fetchInstr s = .ok i) :
    ∃ w, fetchWord s = .ok w ∧ decode w = .ok i := by
  unfold fetchInstr at h
  split at h
  · cases h
  · rename_i w hw
    split at h
    · cases h; exact ⟨w, hw, ‹_›⟩
    · cases h

/-- A word placed where the next step fetches is the word it fetches (log 8). -/
theorem fetchWord_placeWord {s : State} (hm : s.mem.wf) (ha : s.pc.extractLsb' 0 2 = 0#2) (hr : InRange s.params s.pc 4)
    (w : Word) : fetchWord (s.placeWord w) = .ok w := by
  rw [State.placeWord, if_pos ⟨ha, (inBounds_iff _ _ _).2 hr⟩]
  have h := fetchWord_ok (s := (s.setMem (s.mem.writeLE s.pc.toNat w 4)).setRun .running) ha hr
  simp only [State.setRun_mem, State.setMem_mem, State.setRun_pc, State.setMem_pc,
    Memory.readLE_writeLE hm] at h
  rw [h]
  simp

end Sys2Proof.Machine
end

