-- ==== Sys2Proof/Laws/PerInstr.lean ====
section
/-!
SUPPORT. Laws stated for every instruction, one lemma per constructor.
-/

namespace Sys2Proof.Laws

/-- A well-formed instruction's word is selected by the instruction's own row of the list R150. -/
def EncodesItsRow.Statement (i : Instr) : Prop :=
  i.WellFormed → ∃ r ∈ opcodeTable, r.mnemonic = i.mnemonic ∧ r.Matches (encode i)

/-- A row of the list whose mask and pattern select the word is what the statement asks for. -/
theorem EncodesItsRow.of_row {i : Instr} (n : String) (m p : Word) (hr : OpcodeRow.mk n m p ∈ opcodeTable)
    (hn : n = i.mnemonic) (h : encode i &&& m = p) : ∃ r ∈ opcodeTable, r.mnemonic = i.mnemonic ∧ r.Matches (encode i) :=
  ⟨_, hr, hn, h⟩

/-- The high bits of a shift-immediate's word are those of its immediate. -/
theorem extractLsb'_5_7 {imm : Word} {c : BitVec 27} (h : imm.extractLsb' 5 27 = c) :
    imm.extractLsb' 5 7 = c.extractLsb' 0 7 := by
  subst h
  apply BitVec.eq_of_getLsbD_eq; intro i hi
  simp only [BitVec.getLsbD_extractLsb', hi, show i < 27 by omega, decide_true, Bool.true_and, Nat.zero_add]

theorem EncodesItsRow.lui (rd : RegIdx) (imm : Word) : EncodesItsRow.Statement (.lui rd imm) :=
  fun _ => EncodesItsRow.of_row "LUI" 0x0000007F#32 0x00000037#32 (by decide) rfl (encU_mask ..)

theorem EncodesItsRow.auipc (rd : RegIdx) (imm : Word) : EncodesItsRow.Statement (.auipc rd imm) :=
  fun _ => EncodesItsRow.of_row "AUIPC" 0x0000007F#32 0x00000017#32 (by decide) rfl (encU_mask ..)

theorem EncodesItsRow.jal (rd : RegIdx) (imm : Word) : EncodesItsRow.Statement (.jal rd imm) :=
  fun _ => EncodesItsRow.of_row "JAL" 0x0000007F#32 0x0000006F#32 (by decide) rfl (encJ_mask ..)

theorem EncodesItsRow.jalr (rd rs1 : RegIdx) (imm : Word) : EncodesItsRow.Statement (.jalr rd rs1 imm) :=
  fun _ => EncodesItsRow.of_row "JALR" 0x0000707F#32 0x00000067#32 (by decide) rfl (encI_mask ..)

theorem EncodesItsRow.beq (rs1 rs2 : RegIdx) (imm : Word) : EncodesItsRow.Statement (.beq rs1 rs2 imm) :=
  fun _ => EncodesItsRow.of_row "BEQ" 0x0000707F#32 0x00000063#32 (by decide) rfl (encB_mask ..)

theorem EncodesItsRow.bne (rs1 rs2 : RegIdx) (imm : Word) : EncodesItsRow.Statement (.bne rs1 rs2 imm) :=
  fun _ => EncodesItsRow.of_row "BNE" 0x0000707F#32 0x00001063#32 (by decide) rfl (encB_mask ..)

theorem EncodesItsRow.blt (rs1 rs2 : RegIdx) (imm : Word) : EncodesItsRow.Statement (.blt rs1 rs2 imm) :=
  fun _ => EncodesItsRow.of_row "BLT" 0x0000707F#32 0x00004063#32 (by decide) rfl (encB_mask ..)

theorem EncodesItsRow.bge (rs1 rs2 : RegIdx) (imm : Word) : EncodesItsRow.Statement (.bge rs1 rs2 imm) :=
  fun _ => EncodesItsRow.of_row "BGE" 0x0000707F#32 0x00005063#32 (by decide) rfl (encB_mask ..)

theorem EncodesItsRow.bltu (rs1 rs2 : RegIdx) (imm : Word) : EncodesItsRow.Statement (.bltu rs1 rs2 imm) :=
  fun _ => EncodesItsRow.of_row "BLTU" 0x0000707F#32 0x00006063#32 (by decide) rfl (encB_mask ..)

theorem EncodesItsRow.bgeu (rs1 rs2 : RegIdx) (imm : Word) : EncodesItsRow.Statement (.bgeu rs1 rs2 imm) :=
  fun _ => EncodesItsRow.of_row "BGEU" 0x0000707F#32 0x00007063#32 (by decide) rfl (encB_mask ..)

theorem EncodesItsRow.lb (rd rs1 : RegIdx) (imm : Word) : EncodesItsRow.Statement (.lb rd rs1 imm) :=
  fun _ => EncodesItsRow.of_row "LB" 0x0000707F#32 0x00000003#32 (by decide) rfl (encI_mask ..)

theorem EncodesItsRow.lh (rd rs1 : RegIdx) (imm : Word) : EncodesItsRow.Statement (.lh rd rs1 imm) :=
  fun _ => EncodesItsRow.of_row "LH" 0x0000707F#32 0x00001003#32 (by decide) rfl (encI_mask ..)

theorem EncodesItsRow.lw (rd rs1 : RegIdx) (imm : Word) : EncodesItsRow.Statement (.lw rd rs1 imm) :=
  fun _ => EncodesItsRow.of_row "LW" 0x0000707F#32 0x00002003#32 (by decide) rfl (encI_mask ..)

theorem EncodesItsRow.lbu (rd rs1 : RegIdx) (imm : Word) : EncodesItsRow.Statement (.lbu rd rs1 imm) :=
  fun _ => EncodesItsRow.of_row "LBU" 0x0000707F#32 0x00004003#32 (by decide) rfl (encI_mask ..)

theorem EncodesItsRow.lhu (rd rs1 : RegIdx) (imm : Word) : EncodesItsRow.Statement (.lhu rd rs1 imm) :=
  fun _ => EncodesItsRow.of_row "LHU" 0x0000707F#32 0x00005003#32 (by decide) rfl (encI_mask ..)

theorem EncodesItsRow.sb (rs1 rs2 : RegIdx) (imm : Word) : EncodesItsRow.Statement (.sb rs1 rs2 imm) :=
  fun _ => EncodesItsRow.of_row "SB" 0x0000707F#32 0x00000023#32 (by decide) rfl (encS_mask ..)

theorem EncodesItsRow.sh (rs1 rs2 : RegIdx) (imm : Word) : EncodesItsRow.Statement (.sh rs1 rs2 imm) :=
  fun _ => EncodesItsRow.of_row "SH" 0x0000707F#32 0x00001023#32 (by decide) rfl (encS_mask ..)

theorem EncodesItsRow.sw (rs1 rs2 : RegIdx) (imm : Word) : EncodesItsRow.Statement (.sw rs1 rs2 imm) :=
  fun _ => EncodesItsRow.of_row "SW" 0x0000707F#32 0x00002023#32 (by decide) rfl (encS_mask ..)

theorem EncodesItsRow.addi (rd rs1 : RegIdx) (imm : Word) : EncodesItsRow.Statement (.addi rd rs1 imm) :=
  fun _ => EncodesItsRow.of_row "ADDI" 0x0000707F#32 0x00000013#32 (by decide) rfl (encI_mask ..)

theorem EncodesItsRow.slti (rd rs1 : RegIdx) (imm : Word) : EncodesItsRow.Statement (.slti rd rs1 imm) :=
  fun _ => EncodesItsRow.of_row "SLTI" 0x0000707F#32 0x00002013#32 (by decide) rfl (encI_mask ..)

theorem EncodesItsRow.sltiu (rd rs1 : RegIdx) (imm : Word) : EncodesItsRow.Statement (.sltiu rd rs1 imm) :=
  fun _ => EncodesItsRow.of_row "SLTIU" 0x0000707F#32 0x00003013#32 (by decide) rfl (encI_mask ..)

theorem EncodesItsRow.xori (rd rs1 : RegIdx) (imm : Word) : EncodesItsRow.Statement (.xori rd rs1 imm) :=
  fun _ => EncodesItsRow.of_row "XORI" 0x0000707F#32 0x00004013#32 (by decide) rfl (encI_mask ..)

theorem EncodesItsRow.ori (rd rs1 : RegIdx) (imm : Word) : EncodesItsRow.Statement (.ori rd rs1 imm) :=
  fun _ => EncodesItsRow.of_row "ORI" 0x0000707F#32 0x00006013#32 (by decide) rfl (encI_mask ..)

theorem EncodesItsRow.andi (rd rs1 : RegIdx) (imm : Word) : EncodesItsRow.Statement (.andi rd rs1 imm) :=
  fun _ => EncodesItsRow.of_row "ANDI" 0x0000707F#32 0x00007013#32 (by decide) rfl (encI_mask ..)

theorem EncodesItsRow.slli (rd rs1 : RegIdx) (imm : Word) : EncodesItsRow.Statement (.slli rd rs1 imm) :=
  fun h => EncodesItsRow.of_row "SLLI" 0xFE00707F#32 0x00001013#32 (by decide) rfl <| by
    have h7 : imm.extractLsb' 5 7 = 0#7 := extractLsb'_5_7 (of_decide_eq_true h)
    simp only [encode, encI_shiftMask, h7]
    rfl

theorem EncodesItsRow.srli (rd rs1 : RegIdx) (imm : Word) : EncodesItsRow.Statement (.srli rd rs1 imm) :=
  fun h => EncodesItsRow.of_row "SRLI" 0xFE00707F#32 0x00005013#32 (by decide) rfl <| by
    have h7 : imm.extractLsb' 5 7 = 0#7 := extractLsb'_5_7 (of_decide_eq_true h)
    simp only [encode, encI_shiftMask, h7]
    rfl

theorem EncodesItsRow.srai (rd rs1 : RegIdx) (imm : Word) : EncodesItsRow.Statement (.srai rd rs1 imm) :=
  fun h => EncodesItsRow.of_row "SRAI" 0xFE00707F#32 0x40005013#32 (by decide) rfl <| by
    have h7 : imm.extractLsb' 5 7 = 0b0100000#7 := extractLsb'_5_7 (of_decide_eq_true h)
    simp only [encode, encI_shiftMask, h7]
    rfl

theorem EncodesItsRow.add (rd rs1 rs2 : RegIdx) : EncodesItsRow.Statement (.add rd rs1 rs2) :=
  fun _ => EncodesItsRow.of_row "ADD" 0xFE00707F#32 0x00000033#32 (by decide) rfl (encR_mask ..)

theorem EncodesItsRow.sub (rd rs1 rs2 : RegIdx) : EncodesItsRow.Statement (.sub rd rs1 rs2) :=
  fun _ => EncodesItsRow.of_row "SUB" 0xFE00707F#32 0x40000033#32 (by decide) rfl (encR_mask ..)

theorem EncodesItsRow.sll (rd rs1 rs2 : RegIdx) : EncodesItsRow.Statement (.sll rd rs1 rs2) :=
  fun _ => EncodesItsRow.of_row "SLL" 0xFE00707F#32 0x00001033#32 (by decide) rfl (encR_mask ..)

theorem EncodesItsRow.slt (rd rs1 rs2 : RegIdx) : EncodesItsRow.Statement (.slt rd rs1 rs2) :=
  fun _ => EncodesItsRow.of_row "SLT" 0xFE00707F#32 0x00002033#32 (by decide) rfl (encR_mask ..)

theorem EncodesItsRow.sltu (rd rs1 rs2 : RegIdx) : EncodesItsRow.Statement (.sltu rd rs1 rs2) :=
  fun _ => EncodesItsRow.of_row "SLTU" 0xFE00707F#32 0x00003033#32 (by decide) rfl (encR_mask ..)

theorem EncodesItsRow.xor (rd rs1 rs2 : RegIdx) : EncodesItsRow.Statement (.xor rd rs1 rs2) :=
  fun _ => EncodesItsRow.of_row "XOR" 0xFE00707F#32 0x00004033#32 (by decide) rfl (encR_mask ..)

theorem EncodesItsRow.srl (rd rs1 rs2 : RegIdx) : EncodesItsRow.Statement (.srl rd rs1 rs2) :=
  fun _ => EncodesItsRow.of_row "SRL" 0xFE00707F#32 0x00005033#32 (by decide) rfl (encR_mask ..)

theorem EncodesItsRow.sra (rd rs1 rs2 : RegIdx) : EncodesItsRow.Statement (.sra rd rs1 rs2) :=
  fun _ => EncodesItsRow.of_row "SRA" 0xFE00707F#32 0x40005033#32 (by decide) rfl (encR_mask ..)

theorem EncodesItsRow.or (rd rs1 rs2 : RegIdx) : EncodesItsRow.Statement (.or rd rs1 rs2) :=
  fun _ => EncodesItsRow.of_row "OR" 0xFE00707F#32 0x00006033#32 (by decide) rfl (encR_mask ..)

theorem EncodesItsRow.and (rd rs1 rs2 : RegIdx) : EncodesItsRow.Statement (.and rd rs1 rs2) :=
  fun _ => EncodesItsRow.of_row "AND" 0xFE00707F#32 0x00007033#32 (by decide) rfl (encR_mask ..)

theorem EncodesItsRow.fence (rd rs1 : RegIdx) (imm : Word) : EncodesItsRow.Statement (.fence rd rs1 imm) :=
  fun _ => EncodesItsRow.of_row "FENCE" 0x0000707F#32 0x0000000F#32 (by decide) rfl (encI_mask ..)

theorem EncodesItsRow.ecall : EncodesItsRow.Statement .ecall :=
  fun _ => EncodesItsRow.of_row "ECALL" 0xFFFFFFFF#32 0x00000073#32 (by decide) rfl rfl

theorem EncodesItsRow.ebreak : EncodesItsRow.Statement .ebreak :=
  fun _ => EncodesItsRow.of_row "EBREAK" 0xFFFFFFFF#32 0x00100073#32 (by decide) rfl rfl

end Sys2Proof.Laws
end

