-- ==== Sys2Proof/Laws/Run.lean ====
section
/-!
SUPPORT. Runs of several steps, one step at a time.
-/

namespace Sys2Proof.Machine

/-- A step in a terminal state changes nothing (R44). -/
theorem step_terminal {s : State} (h : s.run ≠ .running) : step s = .next s := by
  unfold step
  split
  · exact absurd ‹_› h
  · rfl
  · rfl

/-- One step of a run. -/
theorem core_run_succ {s t : State} (h : step s = .next t) (k : Nat) :
    Sys2Proof.core.run (k + 1) s = Sys2Proof.core.run k t := by
  have h' : Sys2Proof.core.step s = .next t := h
  simp only [Host.Core.run, h']

/-- One step of the host's run. -/
theorem runFor_succ (n : Nat) (s : State) :
    runFor (n + 1) s = if s.run = .running then runFor n (hostStep s).1 else s := by
  rw [runFor]; split <;> simp_all

/-- A terminal state is what any run from it gives. -/
theorem runFor_terminal {s : State} (h : s.run ≠ .running) (n : Nat) : runFor n s = s := by
  cases n with
  | zero => rfl
  | succ n => rw [runFor_succ, if_neg h]

/-- The state `step()` returns is the step's. -/
theorem hostStep_fst {s t : State} (h : step s = .next t) : (hostStep s).1 = t := by
  simp [hostStep, h]

end Sys2Proof.Machine
end

