-- ==== Sys2Proof/Tests/Slice0.lean ====
section
/-!
SUPPORT. The package's own tests: ill-formed terms, words written out from the encodings, single steps, and for every
obligation with hypotheses a state and operands that meet them. Expected results are the vectors of
spec/95_test_vectors.md, named in each comment, or are computed by hand from the rule a comment names.
-/

namespace Sys2Proof.Tests

open Sys2Proof.Machine

/-! ## Helpers: the start state of 95_test_vectors.md section 0 -/

/-- Registers from a list of (index, value). -/
def withRegs (rs : List (RegIdx × Word)) (s : State) : State :=
  rs.foldl (fun s r => s.writeReg r.1 r.2) s

/-- Memory from a list of words and a list of bytes, each at its address. -/
def image (ws : List (Nat × Word)) (bs : List (Nat × Byte)) : Memory :=
  bs.foldl (fun m b => m.writeByte b.1 b.2) (ws.foldl (fun m w => m.writeLE w.1 w.2 4) [])

/-- The launch of section 0 with these parameters, pc and memory. -/
def launchAt (p : Params) (pc : Word) (m : Memory) : State :=
  State.launch { params := p, entryPc := pc, gpr := Vector.replicate 31 0, mem := m }

/-- The parameters of section 0. -/
def params : Params := { memBase := 0, memSize := 0x10000, exitReg := 10 }

/-- One word at pc. -/
def startAt (pc w : Word) (rs : List (RegIdx × Word)) : State :=
  withRegs rs (launchAt params pc (image [(pc.toNat, w)] []))

/-- One word at pc 0x1000. -/
def start (w : Word) (rs : List (RegIdx × Word)) : State := startAt 0x1000 w rs

/-- One word at pc 0x1000 and the bytes of section 2.3 at 0x2000. -/
def startData (w : Word) (rs : List (RegIdx × Word)) : State :=
  withRegs rs (launchAt params 0x1000 (image [(0x1000, w), (0x2000, 0xFFFE7F80), (0x2004, 0x04030201)] []))

/-- The state after one step. -/
def after (s : State) : State := (hostStep s).1

/-- What the step reports. -/
def report (s : State) : StepResult := (hostStep s).2

/-- The word at an address. -/
def wordAt (s : State) (a : Nat) : Word := (s.mem.readLE a 4).setWidth 32

/-! ## Ill-formed terms are refused, one for each check -/

/-- 2048 is no I-immediate, 2047 is (R114). -/
theorem test_wf_immI :
    (Instr.addi 1 1 0x800).wellFormed = false ∧ (Instr.addi 1 1 0x7FF).wellFormed = true := by decide

/-- -2049 is no S-immediate, -2048 is (R115). -/
theorem test_wf_immS :
    (Instr.sw 1 2 0xFFFFF7FF).wellFormed = false ∧ (Instr.sw 1 2 0xFFFFF800).wellFormed = true := by decide

/-- 4096 is no B-immediate, 4094 is (R116). -/
theorem test_wf_immB_range :
    (Instr.beq 0 0 4096).wellFormed = false ∧ (Instr.beq 0 0 4094).wellFormed = true := by decide

/-- A B-immediate is even (R116). -/
theorem test_wf_immB_even : (Instr.bne 0 0 3).wellFormed = false := by decide

/-- A U-immediate has its low 12 bits 0 (R117). -/
theorem test_wf_immU : (Instr.lui 1 0x1001).wellFormed = false ∧ (Instr.auipc 1 0x800).wellFormed = false := by decide

/-- 2^20 is no J-immediate, -2^20 is (R118). -/
theorem test_wf_immJ_range :
    (Instr.jal 1 0x100000).wellFormed = false ∧ (Instr.jal 1 0xFFF00000).wellFormed = true := by decide

/-- A J-immediate is even (R118). -/
theorem test_wf_immJ_even : (Instr.jal 1 1).wellFormed = false := by decide

/-- SLLI and SRLI shift by 0 to 31 (R124). -/
theorem test_wf_shift :
    (Instr.slli 1 1 32).wellFormed = false ∧ (Instr.srli 1 1 0x41F).wellFormed = false := by decide

/-- SRAI's immediate carries 0x400 (R124). -/
theorem test_wf_srai : (Instr.srai 1 1 31).wellFormed = false ∧ (Instr.srai 1 1 0x41F).wellFormed = true := by decide

/-! ## Words written out from R113, R150 and the immediate rules, one for every constructor -/

/-- U-type: imm[31:12], rd, opcode. -/
theorem test_bits_upper :
    decode (0b00010010001101000101#20 ++ 0b00011#5 ++ 0b0110111#7) = .ok (.lui 3 0x12345000) ∧
    decode (0b11111111111111111111#20 ++ 0b00011#5 ++ 0b0010111#7) = .ok (.auipc 3 0xFFFFF000) := by decide

/-- J-type: imm[20], imm[10:1], imm[11], imm[19:12], rd, opcode; and JALR, I-type. -/
theorem test_bits_jump :
    decode (0b1#1 ++ 0b1111111100#10 ++ 0b1#1 ++ 0b11111111#8 ++ 0b00001#5 ++ 0b1101111#7) = .ok (.jal 1 0xFFFFFFF8) ∧
    decode (0b0#1 ++ 0b0110100011#10 ++ 0b1#1 ++ 0b00010010#8 ++ 0b00001#5 ++ 0b1101111#7) = .ok (.jal 1 0x12B46) ∧
    decode (0b111111111111#12 ++ 0b00101#5 ++ 0b000#3 ++ 0b00001#5 ++ 0b1100111#7) = .ok (.jalr 1 5 0xFFFFFFFF) := by decide

/-- B-type: imm[12], imm[10:5], rs2, rs1, funct3, imm[4:1], imm[11], opcode. -/
theorem test_bits_branch :
    decode (0b1#1 ++ 0b111111#6 ++ 0b00010#5 ++ 0b00001#5 ++ 0b000#3 ++ 0b1000#4 ++ 0b1#1 ++ 0b1100011#7) = .ok (.beq 1 2 0xFFFFFFF0) ∧
    decode (0b1#1 ++ 0b000000#6 ++ 0b00010#5 ++ 0b00001#5 ++ 0b001#3 ++ 0b0000#4 ++ 0b0#1 ++ 0b1100011#7) = .ok (.bne 1 2 0xFFFFF000) ∧
    decode (0b0#1 ++ 0b000000#6 ++ 0b00010#5 ++ 0b00001#5 ++ 0b100#3 ++ 0b0000#4 ++ 0b1#1 ++ 0b1100011#7) = .ok (.blt 1 2 0x800) ∧
    decode (0b0#1 ++ 0b111111#6 ++ 0b00010#5 ++ 0b00001#5 ++ 0b101#3 ++ 0b1111#4 ++ 0b0#1 ++ 0b1100011#7) = .ok (.bge 1 2 0x7FE) ∧
    decode (0b0#1 ++ 0b111111#6 ++ 0b00010#5 ++ 0b00001#5 ++ 0b110#3 ++ 0b1111#4 ++ 0b1#1 ++ 0b1100011#7) = .ok (.bltu 1 2 0xFFE) ∧
    decode (0b0#1 ++ 0b000000#6 ++ 0b00010#5 ++ 0b00001#5 ++ 0b111#3 ++ 0b0001#4 ++ 0b0#1 ++ 0b1100011#7) = .ok (.bgeu 1 2 0x2) := by decide

/-- Loads, I-type: imm[11:0], rs1, funct3, rd, opcode. -/
theorem test_bits_load :
    decode (0b111111111111#12 ++ 0b00001#5 ++ 0b000#3 ++ 0b00011#5 ++ 0b0000011#7) = .ok (.lb 3 1 0xFFFFFFFF) ∧
    decode (0b000000000010#12 ++ 0b00001#5 ++ 0b001#3 ++ 0b00011#5 ++ 0b0000011#7) = .ok (.lh 3 1 2) ∧
    decode (0b011111111111#12 ++ 0b00001#5 ++ 0b010#3 ++ 0b00011#5 ++ 0b0000011#7) = .ok (.lw 3 1 0x7FF) ∧
    decode (0b100000000000#12 ++ 0b00001#5 ++ 0b100#3 ++ 0b00011#5 ++ 0b0000011#7) = .ok (.lbu 3 1 0xFFFFF800) ∧
    decode (0b000000000011#12 ++ 0b00001#5 ++ 0b101#3 ++ 0b00011#5 ++ 0b0000011#7) = .ok (.lhu 3 1 3) := by decide

/-- Stores, S-type: imm[11:5], rs2, rs1, funct3, imm[4:0], opcode. -/
theorem test_bits_store :
    decode (0b1111111#7 ++ 0b00010#5 ++ 0b00001#5 ++ 0b000#3 ++ 0b11111#5 ++ 0b0100011#7) = .ok (.sb 1 2 0xFFFFFFFF) ∧
    decode (0b0111111#7 ++ 0b00010#5 ++ 0b00001#5 ++ 0b001#3 ++ 0b00000#5 ++ 0b0100011#7) = .ok (.sh 1 2 0x7E0) ∧
    decode (0b0000000#7 ++ 0b00010#5 ++ 0b00001#5 ++ 0b010#3 ++ 0b11111#5 ++ 0b0100011#7) = .ok (.sw 1 2 0x1F) := by decide

/-- Register-immediate instructions, I-type; the shifts carry funct7 in bits 31 to 25. -/
theorem test_bits_imm :
    decode (0b100000000000#12 ++ 0b00001#5 ++ 0b000#3 ++ 0b00011#5 ++ 0b0010011#7) = .ok (.addi 3 1 0xFFFFF800) ∧
    decode (0b000000000001#12 ++ 0b00001#5 ++ 0b010#3 ++ 0b00011#5 ++ 0b0010011#7) = .ok (.slti 3 1 1) ∧
    decode (0b111111111111#12 ++ 0b00001#5 ++ 0b011#3 ++ 0b00011#5 ++ 0b0010011#7) = .ok (.sltiu 3 1 0xFFFFFFFF) ∧
    decode (0b000000001010#12 ++ 0b00001#5 ++ 0b100#3 ++ 0b00011#5 ++ 0b0010011#7) = .ok (.xori 3 1 10) ∧
    decode (0b011111111111#12 ++ 0b00001#5 ++ 0b110#3 ++ 0b00011#5 ++ 0b0010011#7) = .ok (.ori 3 1 0x7FF) ∧
    decode (0b000011111111#12 ++ 0b00001#5 ++ 0b111#3 ++ 0b00011#5 ++ 0b0010011#7) = .ok (.andi 3 1 255) ∧
    decode (0b000000011111#12 ++ 0b00001#5 ++ 0b001#3 ++ 0b00011#5 ++ 0b0010011#7) = .ok (.slli 3 1 31) ∧
    decode (0b000000000100#12 ++ 0b00001#5 ++ 0b101#3 ++ 0b00011#5 ++ 0b0010011#7) = .ok (.srli 3 1 4) ∧
    decode (0b010000011111#12 ++ 0b00001#5 ++ 0b101#3 ++ 0b00011#5 ++ 0b0010011#7) = .ok (.srai 3 1 0x41F) := by decide

/-- Register-register instructions, R-type: funct7, rs2, rs1, funct3, rd, opcode. -/
theorem test_bits_reg :
    decode (0b0000000#7 ++ 0b00010#5 ++ 0b00001#5 ++ 0b000#3 ++ 0b00011#5 ++ 0b0110011#7) = .ok (.add 3 1 2) ∧
    decode (0b0100000#7 ++ 0b00010#5 ++ 0b00001#5 ++ 0b000#3 ++ 0b00011#5 ++ 0b0110011#7) = .ok (.sub 3 1 2) ∧
    decode (0b0000000#7 ++ 0b00010#5 ++ 0b00001#5 ++ 0b001#3 ++ 0b00011#5 ++ 0b0110011#7) = .ok (.sll 3 1 2) ∧
    decode (0b0000000#7 ++ 0b00010#5 ++ 0b00001#5 ++ 0b010#3 ++ 0b00011#5 ++ 0b0110011#7) = .ok (.slt 3 1 2) ∧
    decode (0b0000000#7 ++ 0b00010#5 ++ 0b00001#5 ++ 0b011#3 ++ 0b00011#5 ++ 0b0110011#7) = .ok (.sltu 3 1 2) ∧
    decode (0b0000000#7 ++ 0b00010#5 ++ 0b00001#5 ++ 0b100#3 ++ 0b00011#5 ++ 0b0110011#7) = .ok (.xor 3 1 2) ∧
    decode (0b0000000#7 ++ 0b00010#5 ++ 0b00001#5 ++ 0b101#3 ++ 0b00011#5 ++ 0b0110011#7) = .ok (.srl 3 1 2) ∧
    decode (0b0100000#7 ++ 0b00010#5 ++ 0b00001#5 ++ 0b101#3 ++ 0b00011#5 ++ 0b0110011#7) = .ok (.sra 3 1 2) ∧
    decode (0b0000000#7 ++ 0b00010#5 ++ 0b00001#5 ++ 0b110#3 ++ 0b00011#5 ++ 0b0110011#7) = .ok (.or 3 1 2) ∧
    decode (0b0000000#7 ++ 0b00010#5 ++ 0b00001#5 ++ 0b111#3 ++ 0b00011#5 ++ 0b0110011#7) = .ok (.and 3 1 2) := by decide

/-- FENCE, I-type, and the two whole words ECALL and EBREAK (R130, R131). -/
theorem test_bits_system :
    decode (0b000011111111#12 ++ 0b00000#5 ++ 0b000#3 ++ 0b00000#5 ++ 0b0001111#7) = .ok (.fence 0 0 0xFF) ∧
    decode (0b000000000000#12 ++ 0b00000#5 ++ 0b000#3 ++ 0b00000#5 ++ 0b1110011#7) = .ok .ecall ∧
    decode (0b000000000001#12 ++ 0b00000#5 ++ 0b000#3 ++ 0b00000#5 ++ 0b1110011#7) = .ok .ebreak := by decide

/-- The encoder gives the worked words of E1, V-R1, V-J2, V-S4, V-I20, V-U1 and V-D12. -/
theorem test_encode :
    encode (.addi 1 0 5) = 0x00500093 ∧ encode (.beq 1 2 0xFFFFFFF0) = 0xFE2088E3 ∧
    encode (.jal 1 0xFFFFFFF8) = 0xFF9FF0EF ∧ encode (.sw 1 2 0xFFFFFFFF) = 0xFE20AFA3 ∧
    encode (.srai 3 1 0x41F) = 0x41F0D193 ∧ encode (.lui 3 0x12345000) = 0x123451B7 ∧
    encode (.fence 0 0 0xFFFFF833) = 0x8330000F := by decide

/-- V-D1 to V-D16, the legal words of section 2.7. -/
theorem test_decode_legal :
    decode 0x80000063 = .ok (.beq 0 0 0xFFFFF000) ∧ decode 0x7E000FE3 = .ok (.beq 0 0 0x00000FFE) ∧
    decode 0x800000EF = .ok (.jal 1 0xFFF00000) ∧ decode 0x7FFFF0EF = .ok (.jal 1 0x000FFFFE) ∧
    decode 0xFE20AFA3 = .ok (.sw 1 2 0xFFFFFFFF) ∧ decode 0x80008193 = .ok (.addi 3 1 0xFFFFF800) ∧
    decode 0x41F0D193 = .ok (.srai 3 1 0x0000041F) ∧ decode 0x00000013 = .ok (.addi 0 0 0) ∧
    decode 0x00508013 = .ok (.addi 0 1 5) ∧ decode 0x12345037 = .ok (.lui 0 0x12345000) ∧
    decode 0x0FF0000F = .ok (.fence 0 0 0x000000FF) ∧ decode 0x8330000F = .ok (.fence 0 0 0xFFFFF833) ∧
    decode 0x0100000F = .ok (.fence 0 0 0x00000010) ∧ decode 0x0FF0808F = .ok (.fence 1 1 0x000000FF) ∧
    decode 0x00000073 = .ok .ecall ∧ decode 0x00100073 = .ok .ebreak := by decide

/-- V-D17 to V-D26, illegal words of section 2.7. -/
theorem test_decode_illegal_1 :
    decode 0x00000000 = .error (.illegalInstruction 0x00000000) ∧
    decode 0xFFFFFFFF = .error (.illegalInstruction 0xFFFFFFFF) ∧
    decode 0x022081B3 = .error (.illegalInstruction 0x022081B3) ∧
    decode 0x02009193 = .error (.illegalInstruction 0x02009193) ∧
    decode 0x4210D193 = .error (.illegalInstruction 0x4210D193) ∧
    decode 0x0210D193 = .error (.illegalInstruction 0x0210D193) ∧
    decode 0x000290E7 = .error (.illegalInstruction 0x000290E7) ∧
    decode 0x0000B183 = .error (.illegalInstruction 0x0000B183) ∧
    decode 0x0000E183 = .error (.illegalInstruction 0x0000E183) ∧
    decode 0x0000F183 = .error (.illegalInstruction 0x0000F183) := by decide

/-- V-D27 to V-D36, illegal words of section 2.7. -/
theorem test_decode_illegal_2 :
    decode 0x0020B023 = .error (.illegalInstruction 0x0020B023) ∧
    decode 0x0020C023 = .error (.illegalInstruction 0x0020C023) ∧
    decode 0x0020A063 = .error (.illegalInstruction 0x0020A063) ∧
    decode 0x0020B063 = .error (.illegalInstruction 0x0020B063) ∧
    decode 0x402091B3 = .error (.illegalInstruction 0x402091B3) ∧
    decode 0x4020F1B3 = .error (.illegalInstruction 0x4020F1B3) ∧
    decode 0x0000100F = .error (.illegalInstruction 0x0000100F) ∧
    decode 0x0000200F = .error (.illegalInstruction 0x0000200F) ∧
    decode 0xC0002573 = .error (.illegalInstruction 0xC0002573) ∧
    decode 0x30001073 = .error (.illegalInstruction 0x30001073) := by decide

/-- V-D37 to V-D46, illegal words of section 2.7. -/
theorem test_decode_illegal_3 :
    decode 0x30200073 = .error (.illegalInstruction 0x30200073) ∧
    decode 0x10200073 = .error (.illegalInstruction 0x10200073) ∧
    decode 0x10500073 = .error (.illegalInstruction 0x10500073) ∧
    decode 0x000000F3 = .error (.illegalInstruction 0x000000F3) ∧
    decode 0x00008073 = .error (.illegalInstruction 0x00008073) ∧
    decode 0x00200073 = .error (.illegalInstruction 0x00200073) ∧
    decode 0x00000001 = .error (.illegalInstruction 0x00000001) ∧
    decode 0x0000000B = .error (.illegalInstruction 0x0000000B) ∧
    decode 0x0000003B = .error (.illegalInstruction 0x0000003B) ∧
    decode 0x0000202F = .error (.illegalInstruction 0x0000202F) := by decide

/-- An instruction needs its four bytes, the first the least significant (R73, R111). -/
theorem test_decodeBytes :
    decodeBytes [0x93, 0x00, 0x50, 0x00, 0xAA] = .ok (.addi 1 0 5, [0xAA]) ∧
    decodeBytes [0x93, 0x00, 0x50] = .error .truncated := by decide

/-- The host's two questions on E1's first word. -/
theorem test_host_question :
    decodeTableWord 32 0x00500093 = some (.addi 1 0 5) ∧
    (after (State.reset.withFetchWord 32 0x00500093)).readReg 1 = 5 := by decide

/-- Reset holds no program: its first fetch reads 0x00000000, which is no instruction (log 8, V-D17). -/
theorem test_reset_has_no_program :
    (after State.reset).run = .faulted (.illegalInstruction 0) 0 := by decide

/-! ## One step -/

/-- V-A2. -/
theorem test_add_wraps : (after (start 0x002081B3 [(1, 0xFFFFFFFF), (2, 1)])).readReg 3 = 0 := by decide

/-- V-A23: both sources are read before the write. -/
theorem test_add_same_register : (after (start 0x001080B3 [(1, 0x40000000)])).readReg 1 = 0x80000000 := by decide

/-- V-A4. -/
theorem test_sub_borrows : (after (start 0x402081B3 [(1, 0), (2, 1)])).readReg 3 = 0xFFFFFFFF := by decide

/-- V-A5. -/
theorem test_sub_order : (after (start 0x402081B3 [(1, 0x80000000), (2, 1)])).readReg 3 = 0x7FFFFFFF := by decide

/-- V-A7. -/
theorem test_sll_31 : (after (start 0x002091B3 [(1, 1), (2, 0x1F)])).readReg 3 = 0x80000000 := by decide

/-- V-A9. -/
theorem test_sll_33 : (after (start 0x002091B3 [(1, 0xFFFFFFFF), (2, 0x21)])).readReg 3 = 0xFFFFFFFE := by decide

/-- V-A10. -/
theorem test_slt_signed : (after (start 0x0020A1B3 [(1, 0x80000000), (2, 0x7FFFFFFF)])).readReg 3 = 1 := by decide

/-- V-A11. -/
theorem test_slt_equal : (after (start 0x0020A1B3 [(1, 5), (2, 5)])).readReg 3 = 0 := by decide

/-- V-A12. -/
theorem test_sltu_less : (after (start 0x0020B1B3 [(1, 0), (2, 0xFFFFFFFF)])).readReg 3 = 1 := by decide

/-- E2. -/
theorem test_sltu_more : (after (start 0x0020B1B3 [(1, 0xFFFFFFFF), (2, 1)])).readReg 3 = 0 := by decide

/-- V-A14. -/
theorem test_xor : (after (start 0x0020C1B3 [(1, 0xF0F0F0F0), (2, 0xFFFFFFFF)])).readReg 3 = 0x0F0F0F0F := by decide

/-- V-A15. -/
theorem test_srl_31 : (after (start 0x0020D1B3 [(1, 0x80000000), (2, 0x1F)])).readReg 3 = 1 := by decide

/-- V-A16. -/
theorem test_srl_low5 :
    (after (start 0x0020D1B3 [(1, 0x80000000), (2, 0xFFFFFFE1)])).readReg 3 = 0x40000000 := by decide

/-- V-A17. -/
theorem test_sra_31 : (after (start 0x4020D1B3 [(1, 0x80000000), (2, 0x1F)])).readReg 3 = 0xFFFFFFFF := by decide

/-- V-A18. -/
theorem test_sra_32 : (after (start 0x4020D1B3 [(1, 0x80000000), (2, 0x20)])).readReg 3 = 0x80000000 := by decide

/-- V-A20. -/
theorem test_or : (after (start 0x0020E1B3 [(1, 0x0F0F0000), (2, 0x0000F0F0)])).readReg 3 = 0x0F0FF0F0 := by decide

/-- V-A21. -/
theorem test_and : (after (start 0x0020F1B3 [(1, 0xFF00FF00), (2, 0x0FF00FF0)])).readReg 3 = 0x0F000F00 := by decide

/-- V-I2. -/
theorem test_addi_negative : (after (start 0x80008193 [(1, 0)])).readReg 3 = 0xFFFFF800 := by decide

/-- V-I3. -/
theorem test_addi_overflow : (after (start 0x7FF08193 [(1, 0x7FFFFFFF)])).readReg 3 = 0x800007FE := by decide

/-- V-I5. -/
theorem test_slti_less : (after (start 0x0000A193 [(1, 0xFFFFFFFF)])).readReg 3 = 1 := by decide

/-- V-I6. -/
theorem test_slti_not_less : (after (start 0xFFF0A193 [(1, 0)])).readReg 3 = 0 := by decide

/-- V-I8. -/
theorem test_sltiu_sign_extends : (after (start 0xFFF0B193 [(1, 0xFFFFFFFE)])).readReg 3 = 1 := by decide

/-- V-I10. -/
theorem test_sltiu_seqz : (after (start 0x0010B193 [(1, 1)])).readReg 3 = 0 := by decide

/-- V-I11. -/
theorem test_xori_not : (after (start 0xFFF0C193 [(1, 0x12345678)])).readReg 3 = 0xEDCBA987 := by decide

/-- V-I12. -/
theorem test_ori : (after (start 0x7FF0E193 [(1, 0x12340000)])).readReg 3 = 0x123407FF := by decide

/-- V-I13. -/
theorem test_andi_sign_extends : (after (start 0x8000F193 [(1, 0xFFFFFFFF)])).readReg 3 = 0xFFFFF800 := by decide

/-- V-I14. -/
theorem test_andi_255 : (after (start 0x0FF0F193 [(1, 0x12345678)])).readReg 3 = 0x00000078 := by decide

/-- V-I15. -/
theorem test_slli_31 : (after (start 0x01F09193 [(1, 1)])).readReg 3 = 0x80000000 := by decide

/-- V-I16. -/
theorem test_slli_4 : (after (start 0x00409193 [(1, 0x12345678)])).readReg 3 = 0x23456780 := by decide

/-- V-I17. -/
theorem test_srli_28 : (after (start 0x01C0D193 [(1, 0xFFFFFFFF)])).readReg 3 = 0x0000000F := by decide

/-- V-I18. -/
theorem test_srli_0 : (after (start 0x0000D193 [(1, 0x80000000)])).readReg 3 = 0x80000000 := by decide

/-- V-I19. -/
theorem test_srai_2 : (after (start 0x4020D193 [(1, 0xFFFFFFF0)])).readReg 3 = 0xFFFFFFFC := by decide

/-- V-I20. -/
theorem test_srai_31 : (after (start 0x41F0D193 [(1, 0x80000000)])).readReg 3 = 0xFFFFFFFF := by decide

/-- V-L1. -/
theorem test_lb_sign : (after (startData 0x00008183 [(1, 0x2000)])).readReg 3 = 0xFFFFFF80 := by decide

/-- V-L2. -/
theorem test_lb_positive : (after (startData 0x00108183 [(1, 0x2000)])).readReg 3 = 0x0000007F := by decide

/-- V-L3. -/
theorem test_lbu_zero : (after (startData 0x0000C183 [(1, 0x2000)])).readReg 3 = 0x00000080 := by decide

/-- V-L4. -/
theorem test_lh_sign : (after (startData 0x00209183 [(1, 0x2000)])).readReg 3 = 0xFFFFFFFE := by decide

/-- V-L6. -/
theorem test_lh_misaligned : (after (startData 0x00109183 [(1, 0x2000)])).readReg 3 = 0xFFFFFE7F := by decide

/-- V-L5. -/
theorem test_lhu_zero : (after (startData 0x0020D183 [(1, 0x2000)])).readReg 3 = 0x0000FFFE := by decide

/-- V-L10. -/
theorem test_lhu_misaligned : (after (startData 0x0030D183 [(1, 0x2000)])).readReg 3 = 0x000001FF := by decide

/-- V-L8. -/
theorem test_lw_misaligned : (after (startData 0x0010A183 [(1, 0x2000)])).readReg 3 = 0x01FFFE7F := by decide

/-- V-L12: the base is read before it is written. -/
theorem test_lw_into_base : (after (startData 0x0040A083 [(1, 0x2000)])).readReg 1 = 0x04030201 := by decide

/-- V-S1, its eight bytes as two words. -/
theorem test_sb :
    wordAt (after (startData 0x00208023 [(1, 0x2000), (2, 0x12345678)])) 0x2000 = 0xFFFE7F78 ∧
    wordAt (after (startData 0x00208023 [(1, 0x2000), (2, 0x12345678)])) 0x2004 = 0x04030201 := by decide

/-- V-S2, its eight bytes as two words. -/
theorem test_sh_misaligned :
    wordAt (after (startData 0x002090A3 [(1, 0x2000), (2, 0xCAFEBABE)])) 0x2000 = 0xFFBABE80 ∧
    wordAt (after (startData 0x002090A3 [(1, 0x2000), (2, 0xCAFEBABE)])) 0x2004 = 0x04030201 := by decide

/-- V-S3, its eight bytes as two words. -/
theorem test_sw_misaligned :
    wordAt (after (startData 0x0020A123 [(1, 0x2000), (2, 0xDEADBEEF)])) 0x2000 = 0xBEEF7F80 ∧
    wordAt (after (startData 0x0020A123 [(1, 0x2000), (2, 0xDEADBEEF)])) 0x2004 = 0x0403DEAD := by decide

/-- V-S4, its eight bytes as two words. -/
theorem test_sw_negative_offset :
    wordAt (after (startData 0xFE20AFA3 [(1, 0x2001), (2, 0x11223344)])) 0x2000 = 0x11223344 ∧
    wordAt (after (startData 0xFE20AFA3 [(1, 0x2001), (2, 0x11223344)])) 0x2004 = 0x04030201 := by decide

/-- V-B2. -/
theorem test_load_out_of_bounds :
    (after (start 0x0000A183 [(1, 0xFFFD), (3, 0x99)])).run = .faulted (.outOfBounds 0xFFFD .word) 0x1000 ∧
    (after (start 0x0000A183 [(1, 0xFFFD), (3, 0x99)])).readReg 3 = 0x99 := by decide

/-- V-B1: the last word is in bounds. -/
theorem test_load_last_word : report (start 0x0000A183 [(1, 0xFFFC), (3, 0x99)]) = .continued 0x1004 := by decide

/-- E7: no byte of the store lands. -/
theorem test_store_all_or_nothing :
    (after (start 0x00112023 [(1, 0xDEADBEEF), (2, 0xFFFE)])).run = .faulted (.outOfBounds 0xFFFE .word) 0x1000 ∧
    (after (start 0x00112023 [(1, 0xDEADBEEF), (2, 0xFFFE)])).mem.readByte 0xFFFE = 0 := by decide

/-- V-B6. -/
theorem test_load_wraps_below_zero :
    (after (start 0xFFC0A183 [(1, 0)])).run = .faulted (.outOfBounds 0xFFFFFFFC .word) 0x1000 := by decide

/-- V-L11 with the base of E7: a load to x0 is still checked (D19). -/
theorem test_load_to_x0_is_checked :
    (after (start 0x0000A003 [(1, 0x10000)])).run = .faulted (.outOfBounds 0x10000 .word) 0x1000 := by decide

/-- V-B9: addresses are not offsets from MEM_BASE. -/
theorem test_absolute_addresses :
    (after (withRegs [(1, 0x7FC)]
      (launchAt { memBase := 0x80000000, memSize := 0x1000, exitReg := 10 } 0x80000000
        (image [(0x80000000, 0x0000A183)] [])))).run = .faulted (.outOfBounds 0x7FC .word) 0x80000000 := by decide

/-- V-R1. -/
theorem test_beq_taken : report (start 0xFE2088E3 [(1, 5), (2, 5)]) = .continued 0x0FF0 := by decide

/-- V-R2. -/
theorem test_beq_not_taken : report (start 0xFE2088E3 [(1, 5), (2, 6)]) = .continued 0x1004 := by decide

/-- V-R3. -/
theorem test_bne_taken : report (start 0xFE2098E3 [(1, 5), (2, 6)]) = .continued 0x0FF0 := by decide

/-- V-R4. -/
theorem test_bne_not_taken : report (start 0xFE2098E3 [(1, 5), (2, 5)]) = .continued 0x1004 := by decide

/-- V-R5. -/
theorem test_blt_taken : report (start 0xFE20C8E3 [(1, 0xFFFFFFFF), (2, 1)]) = .continued 0x0FF0 := by decide

/-- V-R6. -/
theorem test_blt_not_taken : report (start 0xFE20C8E3 [(1, 1), (2, 0xFFFFFFFF)]) = .continued 0x1004 := by decide

/-- V-R7. -/
theorem test_bge_equal : report (start 0xFE20D8E3 [(1, 1), (2, 1)]) = .continued 0x0FF0 := by decide

/-- V-R8. -/
theorem test_bge_not_taken :
    report (start 0xFE20D8E3 [(1, 0x80000000), (2, 0x7FFFFFFF)]) = .continued 0x1004 := by decide

/-- V-R9. -/
theorem test_bltu_taken : report (start 0xFE20E8E3 [(1, 1), (2, 0xFFFFFFFF)]) = .continued 0x0FF0 := by decide

/-- V-R10. -/
theorem test_bltu_not_taken : report (start 0xFE20E8E3 [(1, 0xFFFFFFFF), (2, 1)]) = .continued 0x1004 := by decide

/-- V-R11. -/
theorem test_bgeu_taken : report (start 0xFE20F8E3 [(1, 0xFFFFFFFF), (2, 1)]) = .continued 0x0FF0 := by decide

/-- V-R12. -/
theorem test_bgeu_equal : report (start 0xFE20F8E3 [(1, 0), (2, 0)]) = .continued 0x0FF0 := by decide

/-- V-R14: the branch completes, the next fetch faults. -/
theorem test_branch_to_misaligned :
    report (startAt 0x4000 0x00000363 []) = .continued 0x4006 ∧
    (after (after (startAt 0x4000 0x00000363 []))).run = .faulted (.misalignedFetch 0x4006) 0x4006 := by decide

/-- V-R17. -/
theorem test_branch_pc_wraps : report (startAt 0 0x80000063 []) = .continued 0xFFFFF000 := by decide

/-- V-J2. -/
theorem test_jal_back :
    (after (start 0xFF9FF0EF [])).readReg 1 = 0x1004 ∧
    report (start 0xFF9FF0EF []) = .continued 0x0FF8 := by decide

/-- V-J11. -/
theorem test_jal_smallest :
    (after (start 0x800000EF [])).readReg 1 = 0x1004 ∧
    report (start 0x800000EF []) = .continued 0xFFF01000 := by decide

/-- V-J6 with x5 = 0x2002: the sum 0x2001 loses bit 0 (R291). -/
theorem test_jalr_clears_bit0 :
    (after (start 0xFFF280E7 [(5, 0x2002)])).readReg 1 = 0x1004 ∧
    report (start 0xFFF280E7 [(5, 0x2002)]) = .continued 0x2000 := by decide

/-- V-J7: the target comes from the old x5. -/
theorem test_jalr_same_register :
    (after (start 0x004282E7 [(5, 0x2000)])).readReg 5 = 0x1004 ∧
    report (start 0x004282E7 [(5, 0x2000)]) = .continued 0x2004 := by decide

/-- V-U1. -/
theorem test_lui : (after (start 0x123451B7 [])).readReg 3 = 0x12345000 := by decide

/-- V-U3. -/
theorem test_auipc : (after (start 0x00001197 [])).readReg 3 = 0x00002000 := by decide

/-- V-U4. -/
theorem test_auipc_wraps : (after (start 0xFFFFF197 [])).readReg 3 = 0 := by decide

/-- V-Y2, V-Y1. -/
theorem test_ecall_code :
    report (start 0x00000073 [(10, 0xFFFFFFFF)]) = .halt 0xFFFFFFFF ∧
    (after (start 0x00000073 [(10, 42)])).pc = 0x1000 := by decide

/-- V-Y3. -/
theorem test_ecall_exit_register :
    report { start 0x00000073 [(10, 7), (17, 93)] with params := { params with exitReg := 17 } } = .halt 93 := by decide

/-- V-Y4. -/
theorem test_ebreak : after (start 0x00100073 []) = { start 0x00100073 [] with pc := 0x1004 } := by decide

/-- V-D14: FENCE reads none of its fields and writes no register. -/
theorem test_fence : after (start 0x0FF0808F []) = { start 0x0FF0808F [] with pc := 0x1004 } := by decide

/-- E8: ADDI x0, x0, 5. -/
theorem test_x0_discards : (after (start 0x00500013 [])).readReg 0 = 0 := by decide

/-! ## Fetch faults, illegal words, terminal states -/

/-- V-F7. -/
theorem test_illegal_word :
    (after (start 0xFFFFFFFF [])).run = .faulted (.illegalInstruction 0xFFFFFFFF) 0x1000 := by decide

/-- V-F2: alignment is checked before bounds. -/
theorem test_fetch_misaligned_first :
    report (launchAt params 0x10002 []) = .fault (.misalignedFetch 0x10002) 0x10002 := by decide

/-- V-F3. -/
theorem test_fetch_out_of_bounds :
    report (launchAt params 0x10000 []) = .fault (.outOfBounds 0x10000 .word) 0x10000 := by decide

/-- V-F5. -/
theorem test_fetch_partly_out :
    report (launchAt { params with memSize := 0x10002 } 0x10000 []) =
      .fault (.outOfBounds 0x10000 .word) 0x10000 := by decide

/-- V-F4. -/
theorem test_fetch_last_word : report (startAt 0xFFFC 0x00000013 []) = .continued 0x10000 := by decide

/-- V-Y6. -/
theorem test_terminal :
    after { start 0x00500093 [] with run := .halted 42 } = { start 0x00500093 [] with run := .halted 42 } := by decide

/-! ## The reading aid -/

/-- Assembler text in the forms of R170. -/
theorem test_asm :
    (Instr.sw 1 2 0xFFFFFFFF).toAsm = "SW x2, -1(x1)" ∧ (Instr.srai 3 1 0x41F).toAsm = "SRAI x3, x1, 31" ∧
    (Instr.lui 3 0x12345000).toAsm = "LUI x3, 74565" ∧ (Instr.fence 0 0 0xFF).toAsm = "FENCE iorw, iorw" := by decide

/-- `lo` is negative when bit 11 is set, and `hi` makes up for it (R171). -/
theorem test_hi_lo : hi20 0x12345800 = 0x12346 ∧ loImm 0x12345800 = 0xFFFFF800 := by decide

/-- `ret`, and `li` by two instructions (R171). -/
theorem test_pseudo :
    Pseudo.ret.expand = [.jalr 0 1 0] ∧
    (Pseudo.li 5 0x12345800).expand = [.lui 5 0x12346000, .addi 5 5 0xFFFFF800] := by decide

/-- ABI names (R34). -/
theorem test_abi : abiName 10 = "a0" ∧ abiName 31 = "t6" := by decide

/-! ## Witnesses: for every obligation with hypotheses, a state and operands that meet all of them together -/

/-- A state that ran into a fault: V-B2's load. -/
def faulty : State := start 0x0000A183 [(1, 0xFFFD), (3, 0x99)]

/-- DecodeOfEncodeIsTheInstruction: at both ends of each format's immediate. -/
theorem witness_wellFormed :
    (Instr.addi 31 31 0xFFFFF800).WellFormed ∧ (Instr.addi 0 0 0x7FF).WellFormed ∧
    (Instr.sb 31 31 0xFFFFF800).WellFormed ∧ (Instr.beq 31 31 0xFFFFF000).WellFormed ∧
    (Instr.bgeu 0 0 0xFFE).WellFormed ∧ (Instr.jal 31 0xFFF00000).WellFormed ∧ (Instr.jal 0 0xFFFFE).WellFormed ∧
    (Instr.lui 31 0xFFFFF000).WellFormed ∧ (Instr.slli 1 1 31).WellFormed ∧ (Instr.srai 1 1 0x400).WellFormed ∧
    (Instr.add 31 31 31).WellFormed ∧ Instr.ecall.WellFormed := by decide

/-- EncodeOfDecodeIsTheWord, and the second half of DecodeAgreesWithTheInstructionList. -/
theorem witness_decodes : decode 0xFE20AFA3 = .ok (.sw 1 2 0xFFFFFFFF) := by decide

/-- The first half of DecodeAgreesWithTheInstructionList, and NoWordMatchesTwoRows. -/
theorem witness_row_matches :
    ∃ r ∈ opcodeTable, r.mnemonic = "SRAI" ∧ r.Matches 0x41F0D193 :=
  ⟨{ mnemonic := "SRAI", mask := 0xFE00707F, pattern := 0x40005013 }, by decide, rfl, by decide⟩

/-- UndecodedWordsAreIllegalByName: each half, the second also at the largest word its premise takes. -/
theorem witness_undecoded :
    decode 0x0000000B = .error (.illegalInstruction 0x0000000B) ∧
    (0x00000001 : Word).toNat % 4 ≠ 3 ∧ (0xFFFFFFFE : Word).toNat % 4 ≠ 3 := by decide

/-- LuiAuipcJalTakeEveryWord: each clause, at the largest word of its opcode. -/
theorem witness_upper_opcodes :
    (0xFFFFFFB7 : Word).toNat % 128 = 0x37 ∧ (0xFFFFFF97 : Word).toNat % 128 = 0x17 ∧
    (0xFFFFFFEF : Word).toNat % 128 = 0x6F := by decide

/-- JalrFenceAndSystemWordsAreStrict: each clause, on both sides of each condition. -/
theorem witness_strict_opcodes :
    (0x000280E7 : Word).toNat % 128 = 0x67 ∧ (0x000280E7 : Word).toNat / 2 ^ 12 % 8 = 0 ∧
    (0x000290E7 : Word).toNat % 128 = 0x67 ∧ (0x000290E7 : Word).toNat / 2 ^ 12 % 8 ≠ 0 ∧
    (0x8330000F : Word).toNat % 128 = 0x0F ∧ (0x8330000F : Word).toNat / 2 ^ 12 % 8 = 0 ∧
    (0x0000100F : Word).toNat % 128 = 0x0F ∧ (0x0000100F : Word).toNat / 2 ^ 12 % 8 ≠ 0 ∧
    (0x00000073 : Word).toNat % 128 = 0x73 ∧ (0x00100073 : Word).toNat % 128 = 0x73 ∧
    (0x00200073 : Word).toNat % 128 = 0x73 := by decide

/-- RegisterPortsReadTheLastWrite: the first and the last register, also written one and read the other. -/
theorem witness_registers :
    (1 : RegIdx) ≠ 0#5 ∧ (31 : RegIdx) ≠ 0#5 ∧ (1 : RegIdx).toNat - 1 < 31 ∧ (31 : RegIdx).toNat - 1 < 31 := by decide

/-- MemReadGivesTheBytesInOrder, MemWriteWritesExactlyItsBytes: the memory in its form, and each width's last address in the
range and first one out of it. -/
theorem witness_ranges :
    (start 0x13 []).mem.wf ∧
    InRange params 0xFFFF 1 ∧ ¬ InRange params 0x10000 1 ∧ InRange params 0xFFFE 2 ∧ ¬ InRange params 0xFFFF 2 ∧
    InRange params 0xFFFC 4 ∧ ¬ InRange params 0xFFFD 4 := by
  unfold InRange; decide

/-- AccessesNeverWrap: each clause, at the top of the address space. -/
theorem witness_no_wrap :
    Config.resetParams.wf ∧ inBounds Config.resetParams 0xFFFFFFFC 4 = true ∧
    2 ^ 32 < (0xFFFFFFFD : Word).toNat + 4 := by decide

/-- StoredWordLoadsBack: the last word of the range, from a base with a negative offset. -/
theorem witness_store_load :
    (start 0x13 [(1, 0x10000), (2, 7)]).mem.wf ∧
    InRange params (effAddr (start 0x13 [(1, 0x10000), (2, 7)]) 1 (-4)) 4 ∧ (3 : RegIdx) ≠ 0#5 := by
  unfold InRange; decide

/-- The encoding clauses of the integer, branch and FENCE results: a word for each format (V-I7, V-I20, V-R1, V-U2, V-D14). -/
theorem witness_encoding_clauses :
    ((0xFFF0B193 : Word) = encI 0b011 0b0010011 3 1 0xFFFFFFFF ∧ 0xFFFFFFFF = immI 0xFFF0B193) ∧
    ((0x41F0D193 : Word) = encR 0b0100000 0b101 0b0010011 3 1 ((0x41F : Word).extractLsb' 0 5) ∧
      0x41F = immI 0x41F0D193) ∧
    ((0xFE2088E3 : Word) = encB 0b000 0b1100011 1 2 0xFFFFFFF0 ∧ 0xFFFFFFF0 = immB 0xFE2088E3) ∧
    ((0xFFFFF1B7 : Word) = encU 0b0110111 3 0xFFFFF000 ∧
      (0xFFFFF000 : Word).toNat = (0xFFFFF1B7 : Word).toNat / 4096 * 4096) ∧
    ((0x0FF0808F : Word) = encI 0b000 0b0001111 1 1 0xFF ∧ 0xFF = immI 0x0FF0808F) := by decide

/-- The Load and Store results: an address whose bytes are in range for every width, and one that is in range for none. -/
theorem witness_access_clauses :
    effAddr (start 0x13 [(1, 0xFFFC)]) 1 0 = 0xFFFC ∧ InRange params 0xFFFC 1 ∧ InRange params 0xFFFC 2 ∧
    InRange params 0xFFFC 4 ∧
    effAddr (start 0x13 [(1, 0)]) 1 0xFFFFFFFC = 0xFFFFFFFC ∧ ¬ InRange params 0xFFFFFFFC 1 ∧
    ¬ InRange params 0xFFFFFFFC 2 ∧ ¬ InRange params 0xFFFFFFFC 4 := by
  unfold InRange; decide

/-- MisalignedTargetFaultsAtTheNextFetch: JAL (V-J12), JALR (V-J4) and a taken branch (V-R14). -/
theorem witness_misaligned_targets :
    (∃ t, exec (.jal 1 2) (start 0x002000EF []) = .next t ∧ t.pc.toNat % 4 ≠ 0) ∧
    (∃ t, exec (.jalr 1 5 0) (start 0x000280E7 [(5, 0x2003)]) = .next t ∧ t.pc.toNat % 4 ≠ 0) ∧
    (∃ t, exec (.beq 0 0 6) (startAt 0x4000 0x00000363 []) = .next t ∧ t.pc.toNat % 4 ≠ 0) ∧
    (start 0x002000EF []).run = .running ∧ (start 0x000280E7 [(5, 0x2003)]).run = .running ∧
    (startAt 0x4000 0x00000363 []).run = .running :=
  ⟨⟨_, rfl, by decide⟩, ⟨_, rfl, by decide⟩, ⟨_, rfl, by decide⟩, by decide, by decide, by decide⟩

/-- StepRunsTheDecodedInstruction: the last word of the range. -/
theorem witness_step_runs :
    (startAt 0xFFFC 0x002081B3 []).run = .running ∧ (startAt 0xFFFC 0x002081B3 []).pc.toNat % 4 = 0 ∧
    InRange params 0xFFFC 4 ∧
    decode ((startAt 0xFFFC 0x002081B3 []).mem.readByte 0xFFFF ++ (startAt 0xFFFC 0x002081B3 []).mem.readByte 0xFFFE ++
      (startAt 0xFFFC 0x002081B3 []).mem.readByte 0xFFFD ++ (startAt 0xFFFC 0x002081B3 []).mem.readByte 0xFFFC) =
      .ok (.add 3 1 2) := by
  unfold InRange; decide

/-- FetchFaultsInPriorityOrder: each clause (V-F2, V-F3, V-F7). -/
theorem witness_fetch_faults :
    ((launchAt params 0x10002 []).run = .running ∧ (launchAt params 0x10002 []).pc.toNat % 4 ≠ 0) ∧
    ((launchAt params 0x10000 []).run = .running ∧ (launchAt params 0x10000 []).pc.toNat % 4 = 0 ∧
      ¬ InRange params 0x10000 4) ∧
    ((start 0xFFFFFFFF []).run = .running ∧ (start 0xFFFFFFFF []).pc.toNat % 4 = 0 ∧ InRange params 0x1000 4 ∧
      decode (0xFFFFFFFF : Word) = .error (.illegalInstruction 0xFFFFFFFF) ∧
      (0xFFFFFFFF : Word) = (start 0xFFFFFFFF []).mem.readByte 0x1003 ++ (start 0xFFFFFFFF []).mem.readByte 0x1002 ++
        (start 0xFFFFFFFF []).mem.readByte 0x1001 ++ (start 0xFFFFFFFF []).mem.readByte 0x1000) := by
  unfold InRange; decide

/-- StepFaultsExactlyWhenAnAccessOrDecodeFails, FaultingStepCommitsNothing, NextPcIsCommittedOnlyOnContinue: a step that
faults, on the instruction's own access. -/
theorem witness_faulting_step :
    ∃ t, faulty.run = .running ∧ step faulty = .next t ∧ t.run = .faulted (.outOfBounds 0xFFFD .word) 0x1000 :=
  ⟨after faulty, by decide, rfl, by decide⟩

/-- The same three and EveryStepKeepsTheInvariant's frame: a step that does not fault. -/
theorem witness_continuing_step :
    ∃ t, (start 0x00500093 []).run = .running ∧ step (start 0x00500093 []) = .next t ∧ t.run = .running :=
  ⟨after (start 0x00500093 []), by decide, rfl, by decide⟩

/-- MisalignedFetchComesFromFetchAlone: a step that faults so, and an instruction that is executed. -/
theorem witness_misaligned_fetch :
    (∃ t, (launchAt params 0x1002 []).run = .running ∧ step (launchAt params 0x1002 []) = .next t ∧
      t.run = .faulted (.misalignedFetch 0x1002) 0x1002) ∧
    (∃ t, (start 0x002000EF []).run = .running ∧ exec (.jal 1 2) (start 0x002000EF []) = .next t) :=
  ⟨⟨after (launchAt params 0x1002 []), by decide, rfl, by decide⟩, ⟨_, by decide, rfl⟩⟩

/-- TerminalStatesNeverChange: a halted and a faulted state. -/
theorem witness_terminal :
    (after (start 0x00000073 [])).run ≠ .running ∧ (after faulty).run ≠ .running := by decide

/-- OnlyEcallHalts: a step that halts. -/
theorem witness_halting_step :
    ∃ t, (start 0x00000073 [(10, 42)]).run = .running ∧ step (start 0x00000073 [(10, 42)]) = .next t ∧
      t.run = .halted 42 :=
  ⟨after (start 0x00000073 [(10, 42)]), by decide, rfl, by decide⟩

/-- MemoryChangesOnlyByStores: a step that changes the byte at 0x2000 (V-S1). -/
theorem witness_changed_byte :
    ∃ t, step (startData 0x00208023 [(1, 0x2000), (2, 0x12345678)]) = .next t ∧
      t.mem.readByte 0x2000 ≠ (startData 0x00208023 [(1, 0x2000), (2, 0x12345678)]).mem.readByte 0x2000 :=
  ⟨after (startData 0x00208023 [(1, 0x2000), (2, 0x12345678)]), rfl, by decide⟩

/-- RegistersChangeOnlyAtTheDestination: a step that changes x1. -/
theorem witness_changed_register :
    ∃ t, step (start 0x00500093 []) = .next t ∧ t.readReg 1 ≠ (start 0x00500093 []).readReg 1 :=
  ⟨after (start 0x00500093 []), rfl, by decide⟩

/-- ResultsDependOnlyOnTheSources: two states that differ in x3 alone, for ADD x3, x1, x2 and for ECALL. -/
theorem witness_same_sources :
    (start 0x13 [(1, 5)]).pc = (start 0x13 [(1, 5), (3, 9)]).pc ∧
    (start 0x13 [(1, 5)]).mem = (start 0x13 [(1, 5), (3, 9)]).mem ∧
    (start 0x13 [(1, 5)]).run = (start 0x13 [(1, 5), (3, 9)]).run ∧
    (start 0x13 [(1, 5)]).params = (start 0x13 [(1, 5), (3, 9)]).params ∧
    (∀ r ∈ (Instr.add 3 1 2).sources 10, (start 0x13 [(1, 5)]).readReg r = (start 0x13 [(1, 5), (3, 9)]).readReg r) ∧
    (∀ r ∈ Instr.ecall.sources 10, (start 0x13 [(1, 5)]).readReg r = (start 0x13 [(1, 5), (3, 9)]).readReg r) ∧
    (start 0x13 [(1, 5)]).readReg 3 ≠ (start 0x13 [(1, 5), (3, 9)]).readReg 3 := by decide

/-- ParametersAreFixedForTheRun: a run of two steps. -/
theorem witness_run : ∃ t, Sys2Proof.core.run 2 (start 0x00500093 []) = .next t :=
  ⟨after (after (start 0x00500093 [])), rfl⟩

/-- EvenPcStaysEven: an even pc. -/
theorem witness_even_pc :
    ∃ t, (start 0x00500093 []).pc.toNat % 2 = 0 ∧ step (start 0x00500093 []) = .next t :=
  ⟨after (start 0x00500093 []), by decide, rfl⟩

/-- EveryStepKeepsTheInvariant: a Running, a Faulted and a Halted state that meet it. -/
theorem witness_invariant :
    (start 0x00500093 []).Inv ∧ (after faulty).Inv ∧ (after (start 0x00000073 [(10, 42)])).Inv := by
  refine ⟨⟨by decide, by decide, by decide, trivial⟩, ⟨by decide, by decide, by decide, ?_⟩,
    ⟨by decide, by decide, by decide, ?_⟩⟩
  · exact ⟨by decide, .inr ⟨.lw 3 1 0, 0xFFFD, .word, rfl, by decide, by unfold InRange; decide, rfl⟩⟩
  · exact ⟨rfl, by decide⟩

/-- InvariantHoldsAtLaunch: an image that fits, with a byte at each end of the range. -/
theorem witness_image_fits :
    Launch.imageFits { params := params, entryPc := 0, gpr := Vector.replicate 31 0, mem := [(0, 1), (0xFFFF, 2)] } := by
  refine ⟨by decide, by decide, by decide⟩

/-- LaunchGivesARunningCoreAndChecksNothing: entry points for both clauses. -/
theorem witness_bad_entry :
    (0x1002 : Word).toNat % 4 ≠ 0 ∧ (0x10000 : Word).toNat % 4 = 0 ∧ ¬ InRange params 0x10000 4 := by
  unfold InRange; decide

/-- StoredWordIsTheNextInstructionFetched: the word of P5, stored where it then runs. -/
theorem witness_self_modifying :
    (start 0x13 [(1, 0x02A00513), (2, 0x1008)]).run = .running ∧ (start 0x13 [(1, 0x02A00513), (2, 0x1008)]).mem.wf ∧
    InRange params (effAddr (start 0x13 [(1, 0x02A00513), (2, 0x1008)]) 2 12) 4 ∧
    (effAddr (start 0x13 [(1, 0x02A00513), (2, 0x1008)]) 2 12).toNat % 4 = 0 ∧
    decode ((start 0x13 [(1, 0x02A00513), (2, 0x1008)]).readReg 1) = .ok (.addi 10 0 42) := by
  unfold InRange; decide

/-- HostStepReportsTheStep: a step into each kind of run state, and a step from a terminal one. -/
theorem witness_reports :
    (∃ t, step (start 0x00500093 []) = .next t ∧ t.run = .running) ∧
    (∃ t, step (start 0x00000073 [(10, 42)]) = .next t ∧ t.run = .halted 42) ∧
    (∃ t, step faulty = .next t ∧ t.run = .faulted (.outOfBounds 0xFFFD .word) 0x1000) ∧
    (∃ t, step (after faulty) = .next t ∧ (after faulty).run ≠ .running) :=
  ⟨⟨after (start 0x00500093 []), rfl, by decide⟩, ⟨after (start 0x00000073 [(10, 42)]), rfl, by decide⟩,
    ⟨after faulty, rfl, by decide⟩, ⟨after (after faulty), rfl, by decide⟩⟩

/-- RunEndsInOneResult: a run that has ended within its budget. -/
theorem witness_run_ended : (runFor 2 (start 0x00000073 [])).run ≠ .running := by decide

/-- LiExpansionLoadsItsConstant: a constant for each of the three expansions, at the ends of the short one's range. -/
theorem witness_li :
    (5 : RegIdx) ≠ 0#5 ∧ (Pseudo.li 5 0x7FF).expand = [.addi 5 0 0x7FF] ∧
    (Pseudo.li 5 0xFFFFF800).expand = [.addi 5 0 0xFFFFF800] ∧ (Pseudo.li 5 0x1000).expand = [.lui 5 0x1000] ∧
    (Pseudo.li 5 0x800).expand = [.lui 5 0x1000, .addi 5 5 0xFFFFF800] := by decide


end Sys2Proof.Tests
end

section
/-!
SUPPORT. The fetch, said once: when it faults and with what, which word it gives, and what a step does with either.
-/

namespace Sys2Proof.Machine

/-! ## The fetched word -/

/-- The alignment check on the pc's two low bits is the rule's arithmetic (R37). -/
theorem lowBits_eq_zero_iff (p : Word) : p.extractLsb' 0 2 = 0#2 ↔ p.toNat % 4 = 0 := by
  rw [← BitVec.toNat_inj]
  simp [BitVec.extractLsb'_toNat]

/-- A word read from memory is its four bytes, the least significant at the lowest address (R73, R79). -/
theorem Memory.readLE_word_eq_bytes (m : Memory) (a : Nat) :
    (m.readLE a 4).setWidth 32 =
      m.readByte (a + 3) ++ m.readByte (a + 2) ++ m.readByte (a + 1) ++ m.readByte a := by
  have hb : (0#0 ++ m.readByte (a + 3) : BitVec (0 + 8)) = m.readByte (a + 3) :=
    (BitVec.zero_width_append _ _).trans (BitVec.cast_eq _ _)
  rw [BitVec.setWidth_eq]
  exact congrArg (· ++ m.readByte (a + 2) ++ m.readByte (a + 1) ++ m.readByte a) hb

/-- A pc that is no multiple of 4 is the first thing the fetch refuses (R336, R338). -/
theorem fetchWord_misaligned {s : State} (ha : s.pc.toNat % 4 ≠ 0) :
    fetchWord s = .error (.misalignedFetch s.pc) := by
  exact if_neg (mt (lowBits_eq_zero_iff s.pc).1 ha)

/-- At an aligned pc the fetch refuses what is not wholly in the range (R335, R338). -/
theorem fetchWord_outOfRange {s : State} (ha : s.pc.toNat % 4 = 0) (hr : ¬ InRange s.params s.pc 4) :
    fetchWord s = .error (.outOfBounds s.pc .word) := by
  have h0 := (lowBits_eq_zero_iff s.pc).2 ha
  have he : memRead s s.pc .word = .error (.outOfBounds s.pc .word) := memRead_error hr
  simp [fetchWord, h0, he]

/-- At an aligned pc in the range the fetch gives the four bytes there (R79). -/
theorem fetchWord_bytes {s : State} (ha : s.pc.toNat % 4 = 0) (hr : InRange s.params s.pc 4) :
    fetchWord s = .ok (s.mem.readByte (s.pc.toNat + 3) ++ s.mem.readByte (s.pc.toNat + 2) ++
      s.mem.readByte (s.pc.toNat + 1) ++ s.mem.readByte s.pc.toNat) := by
  rw [fetchWord_ok ((lowBits_eq_zero_iff s.pc).2 ha) hr, Memory.readLE_word_eq_bytes]

/-! ## The fetched instruction -/

theorem fetchInstr_of_fetchWord_error {s : State} {f : Fault} (h : fetchWord s = .error f) :
    fetchInstr s = .error f := by
  simp only [fetchInstr, h]

theorem fetchInstr_of_decode_ok {s : State} {w : Word} {i : Instr} (h : fetchWord s = .ok w)
    (hd : decode w = .ok i) : fetchInstr s = .ok i := by
  simp only [fetchInstr, h, hd]

theorem fetchInstr_of_decode_error {s : State} {w : Word} {e : DecodeError} (h : fetchWord s = .ok w)
    (hd : decode w = .error e) : fetchInstr s = .error (Fault.ofDecodeError w e) := by
  simp only [fetchInstr, h, hd]

/-! ## The step of a Running core -/

/-- A Running core that fetches an instruction executes it (R43). -/
theorem step_of_fetchInstr_ok {s : State} {i : Instr} (hr : s.run = .running) (h : fetchInstr s = .ok i) :
    step s = exec i s := by
  simp only [step, hr, h]

/-- A Running core that fetches none takes the fetch's fault (R43). -/
theorem step_of_fetchInstr_error {s : State} {f : Fault} (hr : s.run = .running) (h : fetchInstr s = .error f) :
    step s = .next (s.setRun (.faulted f s.pc)) := by
  simp only [step, hr, h, raise_eq]

/-- The step at a misaligned pc (R336). -/
theorem step_misaligned {s : State} (hr : s.run = .running) (ha : s.pc.toNat % 4 ≠ 0) :
    step s = .next (s.setRun (.faulted (.misalignedFetch s.pc) s.pc)) :=
  step_of_fetchInstr_error hr (fetchInstr_of_fetchWord_error (fetchWord_misaligned ha))

/-- The step at an aligned pc out of the range (R335). -/
theorem step_outOfRange {s : State} (hr : s.run = .running) (ha : s.pc.toNat % 4 = 0)
    (hb : ¬ InRange s.params s.pc 4) :
    step s = .next (s.setRun (.faulted (.outOfBounds s.pc .word) s.pc)) :=
  step_of_fetchInstr_error hr (fetchInstr_of_fetchWord_error (fetchWord_outOfRange ha hb))

/-- Settles O38: each clause is one answer of the fetch, in the order of its checks. -/
theorem fetchFaultsInPriorityOrder : Obligations.FetchFaultsInPriorityOrder := by
  intro s w hr hw
  refine ⟨step_misaligned hr, step_outOfRange hr, fun ha hb hd => ?_⟩
  have hf : fetchWord s = .ok w := hw ▸ fetchWord_bytes ha hb
  exact step_of_fetchInstr_error hr (fetchInstr_of_decode_error hf hd)

/-- Settles O37: the four bytes at the pc are the word fetched, and the step runs what it decodes to. -/
theorem stepRunsTheDecodedInstruction : Obligations.StepRunsTheDecodedInstruction := by
  intro s i hr ha hb hd
  exact step_of_fetchInstr_ok hr (fetchInstr_of_decode_ok (fetchWord_bytes ha hb) hd)

end Sys2Proof.Machine
end

section
/-!
SUPPORT. Runs: a terminal state stays, and no step and no run stops outside the run state.
-/

namespace Sys2Proof.Machine

/-- Settles O41, by induction on the number of steps, each of which stays. -/
theorem terminalStatesNeverChange : Obligations.TerminalStatesNeverChange := by
  intro s k hr
  induction k with
  | zero => rfl
  | succ k ih => rw [core_run_succ (step_terminal hr), ih]

/-- Every step answers a next state: `step_effect` without the effect. -/
theorem step_answers (s : State) : ∃ t, step s = .next t :=
  (step_effect s).imp fun _ h => h.1

/-- Settles O42: one step by `step_effect`, a run by induction on its length from every state. -/
theorem everyStepAnswersANextState : Obligations.EveryStepAnswersANextState := by
  refine ⟨step_answers, fun k => ?_⟩
  induction k with
  | zero => exact fun s => ⟨s, rfl⟩
  | succ k ih =>
    intro s
    obtain ⟨t, h⟩ := step_answers s
    rw [core_run_succ h]
    exact ih t

end Sys2Proof.Machine
end

section
/-!
SUPPORT. What one step leaves of the registers and the pc, from the inversion lemma of the step.
-/

namespace Sys2Proof.Machine

/-- Only x<rd>, and never x0, reads differently after an instruction (R32, R35). -/
theorem ExecEffect.dest_of_readReg_ne {i : Instr} {s t : State} {r : RegIdx} (h : ExecEffect i s t)
    (hne : t.readReg r ≠ s.readReg r) : i.dest = some r ∧ r ≠ 0#5 := by
  cases h with
  | writes rd v hd hs hl =>
    rw [State.setPc_readReg, State.readReg_writeReg] at hne
    split at hne
    case isTrue e =>
      obtain ⟨rfl, h0⟩ := e
      exact ⟨hd, h0⟩
    case isFalse => exact absurd rfl hne
  | stores a w v hd hs hr => exact absurd rfl hne
  | moves hd ha he => exact absurd rfl hne
  | halts he => exact absurd rfl hne
  | faults a w ha hr => exact absurd rfl hne

/-- An instruction moves the pc to its NextPc and leaves the run state, or keeps the pc and ends the run (R38). -/
theorem ExecEffect.continues_or_ends {i : Instr} {s t : State} (h : ExecEffect i s t) :
    (t.run = s.run ∧ t.pc = nextPcTable i s) ∨ (t.run ≠ .running ∧ t.pc = s.pc) := by
  cases h with
  | writes rd v hd hs hl => exact .inl ⟨State.writeReg_run s rd v, rfl⟩
  | stores a w v hd hs hr => exact .inl ⟨rfl, rfl⟩
  | moves hd ha he => exact .inl ⟨rfl, rfl⟩
  | halts he => exact .inr ⟨nofun, rfl⟩
  | faults a w ha hr => exact .inr ⟨nofun, rfl⟩

/-- Settles O46: a step that stays or faults in the fetch writes no register, and one that executes writes only rd. -/
theorem registersChangeOnlyAtTheDestination : Obligations.RegistersChangeOnlyAtTheDestination := by
  intro s t r h hne
  cases step_inv h with
  | stays hr => exact absurd rfl hne
  | fetchFaults f hr hf => exact absurd rfl hne
  | executes i _ hr hf he => exact ⟨i, hf, he.dest_of_readReg_ne hne⟩

/-- Settles O48: a fetch fault keeps the pc, and an instruction either continues or ends the run. -/
theorem nextPcIsCommittedOnlyOnContinue : Obligations.NextPcIsCommittedOnlyOnContinue := by
  intro s t hrun h
  cases step_inv h with
  | stays hr => exact absurd hrun hr
  | fetchFaults f hr hf => exact ⟨nofun, fun _ => rfl⟩
  | executes i _ hr hf he =>
    obtain ⟨hkeeps, hp⟩ | ⟨hends, hp⟩ := he.continues_or_ends
    · exact ⟨fun _ => ⟨i, hf, hp⟩, fun hn => absurd (hkeeps.trans hrun) hn⟩
    · exact ⟨fun hc => absurd hc hends, fun _ => hp⟩

end Sys2Proof.Machine
end

section
/-!
SUPPORT. Two runs of one instruction: the shared operations take equal operands to equal effects, so an instruction's effect
is a function of its sources and of what is no register.
-/

namespace Sys2Proof.Machine

/-- The two states differ at most in their registers. -/
structure SameBesideRegs (s s' : State) : Prop where
  pc : s.pc = s'.pc
  mem : s.mem = s'.mem
  run : s.run = s'.run
  params : s.params = s'.params

/-- From `s` and `s'` the two outcomes are next states that differ at most in their registers, each of which is unchanged
on both sides or is the one in `d` and the same on both. -/
def SameResult (d : Option RegIdx) (s s' : State) (o o' : Host.Outcome State Fault Refusal) : Prop :=
  ∃ t t', o = .next t ∧ o' = .next t' ∧ SameBesideRegs t t' ∧
    ∀ r, (t.readReg r = s.readReg r ∧ t'.readReg r = s'.readReg r) ∨ (d = some r ∧ t.readReg r = t'.readReg r)

section
variable {d : Option RegIdx} {s s' : State} (h : SameBesideRegs s s')
include h

/-! ## What reads no register gives the same in both states -/

theorem SameBesideRegs.nextPc_eq : nextPc s = nextPc s' := congrArg (· + 4) h.pc

theorem SameBesideRegs.pcRel_eq (imm : Word) : pcRel s imm = pcRel s' imm := congrArg (· + imm) h.pc

theorem SameBesideRegs.memRead_eq (a : Word) (w : Width) : memRead s a w = memRead s' a w := by
  simp only [memRead, h.mem, h.params]

theorem SameBesideRegs.memWrite_eq (a : Word) (w : Width) (v : Word) : memWrite s a w v = memWrite s' a w v := by
  simp only [memWrite, h.mem, h.params]

/-! ## The shared operations, on equal operands -/

theorem continueAt_sameResult {p p' : Word} (hp : p = p') :
    SameResult d s s' (continueAt p s) (continueAt p' s') :=
  ⟨_, _, rfl, rfl, ⟨hp, h.mem, h.run, h.params⟩, fun _ => .inl ⟨rfl, rfl⟩⟩

theorem raise_sameResult (f : Fault) : SameResult d s s' (raise f s) (raise f s') :=
  ⟨_, _, rfl, rfl, ⟨h.pc, h.mem, congrArg (RunState.faulted f) h.pc, h.params⟩, fun _ => .inl ⟨rfl, rfl⟩⟩

theorem halt_sameResult {c c' : Word} (hc : c = c') : SameResult d s s' (halt c s) (halt c' s') :=
  ⟨_, _, rfl, rfl, ⟨h.pc, h.mem, congrArg RunState.halted hc, h.params⟩, fun _ => .inl ⟨rfl, rfl⟩⟩

theorem branchIf_sameResult {c c' : Bool} (imm : Word) (hc : c = c') :
    SameResult d s s' (branchIf c imm s) (branchIf c' imm s') :=
  continueAt_sameResult h (by rw [hc, h.pcRel_eq, h.nextPc_eq])

/-- Writing equal values to rd and going on at equal addresses. -/
theorem writeReg_sameResult (rd : RegIdx) {v v' p p' : Word} (hv : v = v') (hp : p = p') :
    SameResult (some rd) s s' (continueAt p (s.writeReg rd v)) (continueAt p' (s'.writeReg rd v')) := by
  refine ⟨_, _, rfl, rfl, ⟨hp, by simp [h.mem], by simp [h.run], by simp [h.params]⟩, fun r => ?_⟩
  rw [State.setPc_readReg, State.setPc_readReg, State.readReg_writeReg, State.readReg_writeReg, hv]
  by_cases e : r = rd ∧ rd ≠ 0#5
  · exact .inr ⟨congrArg some e.1.symm, by rw [if_pos e, if_pos e]⟩
  · exact .inl ⟨if_neg e, if_neg e⟩

theorem writeResult_sameResult {rd : RegIdx} {v v' : Word} (hv : v = v') :
    SameResult (some rd) s s' (writeResult rd v s) (writeResult rd v' s') :=
  writeReg_sameResult h rd hv h.nextPc_eq

theorem linkAndJump_sameResult {rd : RegIdx} {p p' : Word} (hp : p = p') :
    SameResult (some rd) s s' (linkAndJump rd p s) (linkAndJump rd p' s') :=
  writeReg_sameResult h rd h.nextPc_eq hp

theorem loadInto_sameResult {rd : RegIdx} {a a' : Word} (w : Width) (ext : BitVec (8 * w.bytes) → Word) (ha : a = a') :
    SameResult (some rd) s s' (loadInto rd a w ext s) (loadInto rd a' w ext s') := by
  simp only [loadInto, ← ha, ← h.memRead_eq]
  cases memRead s a w with
  | ok v => exact writeResult_sameResult h rfl
  | error f => exact raise_sameResult h f

theorem storeFrom_sameResult {a a' v v' : Word} (w : Width) (ha : a = a') (hv : v = v') :
    SameResult d s s' (storeFrom a w v s) (storeFrom a' w v' s') := by
  simp only [storeFrom, ← ha, ← hv, ← h.memWrite_eq]
  cases memWrite s a w v with
  | ok m =>
    exact ⟨_, _, rfl, rfl, ⟨h.nextPc_eq, rfl, h.run, h.params⟩, fun _ => .inl ⟨rfl, rfl⟩⟩
  | error f => exact raise_sameResult h f

/-! ## One instruction -/

/-- Every instruction, by the shared operation that gives it its meaning. -/
theorem exec_sameResult (i : Instr) (hsrc : ∀ r ∈ i.sources s.params.exitReg, s.readReg r = s'.readReg r) :
    SameResult i.dest s s' (exec i s) (exec i s') := by
  cases i with
  | lui rd imm => exact writeResult_sameResult h rfl
  | auipc rd imm => exact writeResult_sameResult h (h.pcRel_eq imm)
  | jal rd imm => exact linkAndJump_sameResult h (h.pcRel_eq imm)
  | jalr rd rs1 imm =>
    have h1 := hsrc rs1 (by simp [Instr.sources])
    exact linkAndJump_sameResult h (by simp only [jalrTarget, h1])
  | beq rs1 rs2 imm | bne rs1 rs2 imm | blt rs1 rs2 imm | bge rs1 rs2 imm | bltu rs1 rs2 imm | bgeu rs1 rs2 imm =>
    have h1 := hsrc rs1 (by simp [Instr.sources])
    have h2 := hsrc rs2 (by simp [Instr.sources])
    exact branchIf_sameResult h imm (by simp only [h1, h2])
  | lb rd rs1 imm | lh rd rs1 imm | lw rd rs1 imm | lbu rd rs1 imm | lhu rd rs1 imm =>
    have h1 := hsrc rs1 (by simp [Instr.sources])
    exact loadInto_sameResult h _ _ (by simp only [effAddr, h1])
  | sb rs1 rs2 imm | sh rs1 rs2 imm | sw rs1 rs2 imm =>
    have h1 := hsrc rs1 (by simp [Instr.sources])
    have h2 := hsrc rs2 (by simp [Instr.sources])
    exact storeFrom_sameResult h _ (by simp only [effAddr, h1]) h2
  | addi rd rs1 imm | slti rd rs1 imm | sltiu rd rs1 imm | xori rd rs1 imm | ori rd rs1 imm | andi rd rs1 imm
  | slli rd rs1 imm | srli rd rs1 imm | srai rd rs1 imm =>
    have h1 := hsrc rs1 (by simp [Instr.sources])
    exact writeResult_sameResult h (by simp only [h1])
  | add rd rs1 rs2 | sub rd rs1 rs2 | sll rd rs1 rs2 | slt rd rs1 rs2 | sltu rd rs1 rs2 | xor rd rs1 rs2
  | srl rd rs1 rs2 | sra rd rs1 rs2 | or rd rs1 rs2 | and rd rs1 rs2 =>
    have h1 := hsrc rs1 (by simp [Instr.sources])
    have h2 := hsrc rs2 (by simp [Instr.sources])
    exact writeResult_sameResult h (by simp only [h1, h2])
  | fence rd rs1 imm => exact continueAt_sameResult h h.nextPc_eq
  | ecall =>
    have h1 := hsrc s.params.exitReg (by simp [Instr.sources])
    exact halt_sameResult h (h.params ▸ h1)
  | ebreak => exact continueAt_sameResult h h.nextPc_eq

end

/-- Settles O47: `exec_sameResult` with its parts spelled out. -/
theorem resultsDependOnlyOnTheSources : Obligations.ResultsDependOnlyOnTheSources := by
  intro i s s' hpc hmem hrun hparams hsrc
  obtain ⟨t, t', ht, ht', hsame, hregs⟩ := exec_sameResult ⟨hpc, hmem, hrun, hparams⟩ i hsrc
  exact ⟨t, t', ht, ht', hsame.pc, hsame.mem, hsame.run, hsame.params, hregs⟩

end Sys2Proof.Machine
end

section
/-!
SUPPORT. The register ports and launch.
-/

namespace Sys2Proof.Machine

/-- A write to x0 changes nothing (R32). -/
@[simp] theorem State.writeReg_zero (s : State) (v : Word) : s.writeReg 0#5 v = s := rfl

/-- Any other register reads after launch what INIT_GPR gives it (R31, R48). -/
theorem State.launch_readReg (l : Launch) {r : RegIdx} (hr : r ≠ 0#5) :
    (State.launch l).readReg r = l.gpr[regSlot r] := by
  rw [State.readReg, if_neg hr, State.launch]

/-- Settles O11: the two ports' laws, and the slot of x<r> in the launch values. -/
theorem registerPortsReadTheLastWrite : Obligations.RegisterPortsReadTheLastWrite := by
  refine ⟨State.readReg_zero, State.writeReg_zero, fun s r q v hr => ?_, fun l r h hr => State.launch_readReg l hr⟩
  simp only [State.readReg_writeReg, hr, ne_eq, not_false_eq_true, and_true]

/-- A launch of an image that fits meets the invariant: it is Running, so it records nothing (R48, R374). -/
theorem State.launch_inv {l : Launch} (h : l.imageFits) : (State.launch l).Inv := by
  obtain ⟨hrange, hform, hinside⟩ := h
  exact ⟨hrange, hform, hinside, trivial⟩

/-- The reset launch's empty image fits its range, the whole address space (logs 2 and 3). -/
theorem Launch.reset_imageFits : Launch.reset.imageFits := by
  exact ⟨by decide, Memory.reset_wf, by simp [Launch.reset]⟩

/-- Settles O52: reset is the launch of an image that fits. -/
theorem invariantHoldsAtLaunch : Obligations.InvariantHoldsAtLaunch :=
  ⟨State.launch_inv Launch.reset_imageFits, fun _ => State.launch_inv⟩

/-- Settles O53: launch copies what it is given, and the first fetch finds a bad entry point. -/
theorem launchGivesARunningCoreAndChecksNothing : Obligations.LaunchGivesARunningCoreAndChecksNothing := fun l =>
  ⟨rfl, rfl, rfl, rfl, State.readReg_zero _, step_misaligned (s := State.launch l) rfl,
    step_outOfRange (s := State.launch l) rfl⟩

end Sys2Proof.Machine
end

section
/-!
SUPPORT. Memory and the launch parameters along a step: the two access primitives, what an instruction and a step can do to
memory, from that the invariant of the machine, and the fetch of a word just stored.
-/

namespace Sys2Proof.Machine

/-! ## The access primitives -/

/-- A write in the range gives the memory with the access's bytes stored (R77). -/
theorem memWrite_ok {s : State} {a : Word} {w : Width} (v : Word) (h : InRange s.params a w.bytes) :
    memWrite s a w v = .ok (s.mem.writeLE a.toNat v w.bytes) := by
  simp only [memWrite, if_pos ((inBounds_iff _ _ _).2 h)]

/-- A write outside the range is OutOfBounds (R77). -/
theorem memWrite_error {s : State} {a : Word} {w : Width} (v : Word) (h : ¬ InRange s.params a w.bytes) :
    memWrite s a w v = .error (.outOfBounds a w) := by
  simp only [memWrite, if_neg (mt (inBounds_iff _ _ _).1 h)]

/-- Settles O12: the value read is the little-endian read, whose bytes `readLE_byte` gives. -/
theorem memReadGivesTheBytesInOrder : Obligations.MemReadGivesTheBytesInOrder := by
  intro s a w
  exact ⟨fun h => ⟨_, memRead_ok h, fun _ hk => Memory.readLE_byte s.mem a.toNat w.bytes hk⟩, memRead_error⟩

/-- Settles O13: the memory written is the little-endian write, which keeps the form and every byte outside the access. -/
theorem memWriteWritesExactlyItsBytes : Obligations.MemWriteWritesExactlyItsBytes := by
  intro s a w v hm
  refine ⟨fun h => ⟨_, memWrite_ok v h, Memory.writeLE_wf hm _ _ _, fun k hk => ?_, fun b hb => ?_⟩, memWrite_error v⟩
  · rw [Memory.readByte_writeLE_inside hm _ _ _ hk, byteOf_eq]
  · exact Memory.readByte_writeLE_outside _ _ _ _ hb

/-- Settles O14: the bounds check compares integers, so an access it admits ends inside the range. -/
theorem accessesNeverWrap : Obligations.AccessesNeverWrap := by
  intro p a n hp
  have hle : inBounds p a n = true → a.toNat + n ≤ 2 ^ 32 := fun h => ((inBounds_iff p a n).1 h).2.trans hp
  exact ⟨hle, fun hlt => Bool.eq_false_of_not_eq_true fun h => absurd (hle h) (Nat.not_le.2 hlt)⟩

/-! ## The launch parameters -/

/-- No instruction changes the launch parameters (R9). -/
theorem ExecEffect.params_eq {i : Instr} {s t : State} (h : ExecEffect i s t) : t.params = s.params := by
  cases h with
  | writes rd v hd hs hl => exact State.writeReg_params s rd v
  | stores a w v hd hs hr => rfl
  | moves hd ha he => rfl
  | halts he => rfl
  | faults a w ha hr => rfl

/-- No step changes the launch parameters (R9). -/
theorem step_params {s t : State} (h : step s = .next t) : t.params = s.params := by
  cases step_inv h with
  | stays hr => rfl
  | fetchFaults f hr hf => rfl
  | executes i _ hr hf he => exact he.params_eq

/-- Settles O49, by induction on the length of the run, each step of which keeps them. -/
theorem parametersAreFixedForTheRun : Obligations.ParametersAreFixedForTheRun := by
  intro k
  induction k with
  | zero =>
    intro s t h
    cases h
    rfl
  | succ k ih =>
    intro s t h
    obtain ⟨u, hu⟩ := step_answers s
    rw [core_run_succ hu] at h
    exact (ih u t h).trans (step_params hu)

/-! ## What changes memory -/

/-- An instruction leaves memory alone, or is a store whose access lies in the range and writes its bytes (R89). -/
theorem ExecEffect.mem_eq_or_stores {i : Instr} {s t : State} (h : ExecEffect i s t) :
    t.mem = s.mem ∨ ∃ a w v, storeAccess i s = some (a, w) ∧ InRange s.params a w.bytes ∧
      t.mem = s.mem.writeLE a.toNat v w.bytes := by
  cases h with
  | writes rd v hd hs hl => exact .inl (State.writeReg_mem s rd v)
  | stores a w v hd hs hr => exact .inr ⟨a, w, v, hs, hr, rfl⟩
  | moves hd ha he => exact .inl rfl
  | halts he => exact .inl rfl
  | faults a w ha hr => exact .inl rfl

/-- A step leaves memory alone, or runs a store whose access lies in the range and writes its bytes (R89). -/
theorem step_mem_eq_or_stores {s t : State} (h : step s = .next t) :
    t.mem = s.mem ∨ ∃ i a w v, fetchInstr s = .ok i ∧ storeAccess i s = some (a, w) ∧
      InRange s.params a w.bytes ∧ t.mem = s.mem.writeLE a.toNat v w.bytes := by
  cases step_inv h with
  | stays hr => exact .inl rfl
  | fetchFaults f hr hf => exact .inl rfl
  | executes i _ hr hf he => exact he.mem_eq_or_stores.imp_right fun ⟨a, w, v, hst⟩ => ⟨i, a, w, v, hf, hst⟩

/-- Settles O45: a changed byte was written by a store, and a store's write leaves what lies outside its access. -/
theorem memoryChangesOnlyByStores : Obligations.MemoryChangesOnlyByStores := by
  refine ⟨fun s t b h hne => ?_, fun l => rfl⟩
  obtain hkeep | ⟨i, a, w, v, hf, hs, -, hm⟩ := step_mem_eq_or_stores h
  · exact absurd (by rw [hkeep]) hne
  · have hin : ¬ (b < a.toNat ∨ a.toNat + w.bytes ≤ b) := fun hout =>
      hne (by rw [hm, Memory.readByte_writeLE_outside _ _ _ _ hout])
    exact ⟨i, a, w, hf, hs, by omega, by omega⟩

/-! ## The invariant -/

/-- A store in the range lists nothing outside it (R71, R77). -/
theorem Memory.writeLE_inside {m : Memory} {p : Params} {a : Word} {n : Nat} (hm : m.Inside p) (hr : InRange p a n)
    (v : Word) : (m.writeLE a.toNat v n).Inside p := by
  intro c hc
  obtain ⟨hbase, htop⟩ := hr
  obtain hold | ⟨hlo, hhi⟩ := Memory.mem_writeLE hc
  · exact hm c hold
  · exact ⟨hbase.trans hlo, hhi.trans_le htop⟩

/-- A step keeps the canonical form of memory and the range it lies in (R71, R78). -/
theorem step_mem_wf_inside {s t : State} (h : step s = .next t) (hm : s.mem.wf) (hi : s.mem.Inside s.params) :
    t.mem.wf ∧ t.mem.Inside s.params := by
  obtain hkeep | ⟨_, a, w, v, -, -, hr, hw⟩ := step_mem_eq_or_stores h
  · rw [hkeep]
    exact ⟨hm, hi⟩
  · rw [hw]
    exact ⟨Memory.writeLE_wf hm _ _ _, Memory.writeLE_inside hi hr v⟩

/-- Writing the run state does not change what is fetched: the fetch reads only the pc, the memory and the range. -/
@[simp] theorem fetchInstr_setRun (s : State) (r : RunState) : fetchInstr (s.setRun r) = fetchInstr s :=
  fetchInstr_congr rfl rfl rfl

/-- A Running state records nothing. -/
theorem State.recordAgrees_of_running {s : State} (h : s.run = .running) : s.RecordAgrees := by
  simp only [State.RecordAgrees, h]

/-- The record of a fault that fetching or decoding raised (R332, R334, R336). -/
theorem State.recordAgrees_of_fetchFault {s : State} {f : Fault} (h : fetchInstr s = .error f) :
    (s.setRun (.faulted f s.pc)).RecordAgrees :=
  ⟨rfl, .inl ((fetchInstr_setRun _ _).trans h)⟩

/-- An instruction that a Running core executes leaves it Running or records what it saw (R332, R333, R339). -/
theorem ExecEffect.recordAgrees {i : Instr} {s t : State} (h : ExecEffect i s t) (hrun : s.run = .running)
    (hf : fetchInstr s = .ok i) : t.RecordAgrees := by
  cases h with
  | writes rd v hd hs hl => exact State.recordAgrees_of_running ((State.writeReg_run s rd v).trans hrun)
  | stores a w v hd hs hr => exact State.recordAgrees_of_running hrun
  | moves hd ha he => exact State.recordAgrees_of_running hrun
  | halts he => exact ⟨(fetchInstr_setRun _ _).trans (he ▸ hf), rfl⟩
  | faults a w ha hr => exact ⟨rfl, .inr ⟨i, a, w, (fetchInstr_setRun _ _).trans hf, ha, hr, rfl⟩⟩

/-- A step keeps the agreement of the record with the state: a terminal state stays (R44), any other records afresh. -/
theorem step_recordAgrees {s t : State} (h : step s = .next t) (hs : s.RecordAgrees) : t.RecordAgrees := by
  cases step_inv h with
  | stays hr => exact hs
  | fetchFaults f hr hf => exact State.recordAgrees_of_fetchFault hf
  | executes i _ hr hf he => exact he.recordAgrees hr hf

/-- Settles O51: the four parts of the invariant, each kept by every step. -/
theorem everyStepKeepsTheInvariant : Obligations.EveryStepKeepsTheInvariant := by
  intro s t ⟨hrange, hform, hinside, hrecord⟩ h
  have hp : t.params = s.params := step_params h
  obtain ⟨hform', hinside'⟩ := step_mem_wf_inside h hform hinside
  exact ⟨hp ▸ hrange, hform', hp ▸ hinside', step_recordAgrees h hrecord⟩

/-! ## A stored word, fetched -/

/-- A word stored at an aligned pc in the range is the word fetched there (R79, R87). -/
theorem fetchWord_writeLE {s : State} {m : Memory} {v : Word} (hm : m.wf) (hs : s.mem = m.writeLE s.pc.toNat v 4)
    (ha : s.pc.toNat % 4 = 0) (hr : InRange s.params s.pc 4) : fetchWord s = .ok v := by
  rw [fetchWord_ok ((lowBits_eq_zero_iff s.pc).2 ha) hr, hs, Memory.readLE_writeLE hm, BitVec.setWidth_eq,
    BitVec.setWidth_eq]

/-- Settles O54: the store completes, and the fetch at its address gives the word stored. -/
theorem storedWordIsTheNextInstructionFetched : Obligations.StoredWordIsTheNextInstructionFetched := by
  intro s rs1 rs2 imm i hrun hm hr ha hd
  refine ⟨_, storeFrom_ok (w := .word) _ hr, step_of_fetchInstr_ok hrun (fetchInstr_of_decode_ok ?_ hd)⟩
  exact fetchWord_writeLE hm rfl ha hr

end Sys2Proof.Machine
end

section
/-!
SUPPORT. Decoding and encoding as inverses: the decoder answers `i` exactly when the word spells `i` (`decode_spells` and its
converse), a well-formed instruction's word spells it, and a word that spells an instruction is that instruction's word.
-/

namespace Sys2Proof

/-! ## The selection at each major opcode (R122) -/

theorem decode_of_select {w : Word} {i : Instr} (h : select w = some i) : decode w = .ok i := by
  simp only [decode, h]

theorem decode_of_select_none {w : Word} (h : select w = none) : decode w = .error (.illegalInstruction w) := by
  simp only [decode, h]

section
variable {w : Word}

theorem select_lui (h : opcodeOf w = 0b0110111) : select w = some (.lui (rdOf w) (immU w)) := by
  simp [select, h]

theorem select_auipc (h : opcodeOf w = 0b0010111) : select w = some (.auipc (rdOf w) (immU w)) := by
  simp [select, h]

theorem select_jal (h : opcodeOf w = 0b1101111) : select w = some (.jal (rdOf w) (immJ w)) := by
  simp [select, h]

theorem select_jalr (h : opcodeOf w = 0b1100111) :
    select w = if funct3Of w = 0b000 then some (.jalr (rdOf w) (rs1Of w) (immI w)) else none := by
  simp [select, h]

theorem select_branch (h : opcodeOf w = 0b1100011) :
    select w = decodeBranch (funct3Of w) (rs1Of w) (rs2Of w) (immB w) := by
  simp [select, h]

theorem select_load (h : opcodeOf w = 0b0000011) :
    select w = decodeLoad (funct3Of w) (rdOf w) (rs1Of w) (immI w) := by
  simp [select, h]

theorem select_store (h : opcodeOf w = 0b0100011) :
    select w = decodeStore (funct3Of w) (rs1Of w) (rs2Of w) (immS w) := by
  simp [select, h]

theorem select_opImm (h : opcodeOf w = 0b0010011) :
    select w = decodeOpImm (funct7Of w) (funct3Of w) (rdOf w) (rs1Of w) (immI w) := by
  simp [select, h]

theorem select_op (h : opcodeOf w = 0b0110011) :
    select w = decodeOp (funct7Of w) (funct3Of w) (rdOf w) (rs1Of w) (rs2Of w) := by
  simp [select, h]

theorem select_fence (h : opcodeOf w = 0b0001111) :
    select w = if funct3Of w = 0b000 then some (.fence (rdOf w) (rs1Of w) (immI w)) else none := by
  simp [select, h]

theorem select_system (h : opcodeOf w = 0b1110011) : select w = decodeSystem w := by
  simp [select, h]

end

/-! ## A word that spells an instruction decodes to it -/

/-- The converse of `decode_spells`: the selection by opcode, then by funct3 and funct7. -/
theorem select_of_spells {w : Word} {i : Instr} (h : Spells w i) : select w = some i := by
  cases i with
  | lui rd imm => obtain ⟨ho, rfl, rfl⟩ := h; exact select_lui ho
  | auipc rd imm => obtain ⟨ho, rfl, rfl⟩ := h; exact select_auipc ho
  | jal rd imm => obtain ⟨ho, rfl, rfl⟩ := h; exact select_jal ho
  | jalr rd rs1 imm => obtain ⟨ho, h3, rfl, rfl, rfl⟩ := h; rw [select_jalr ho, if_pos h3]
  | beq rs1 rs2 imm | bne rs1 rs2 imm | blt rs1 rs2 imm | bge rs1 rs2 imm | bltu rs1 rs2 imm | bgeu rs1 rs2 imm =>
    obtain ⟨ho, h3, rfl, rfl, rfl⟩ := h
    rw [select_branch ho, h3]
    rfl
  | lb rd rs1 imm | lh rd rs1 imm | lw rd rs1 imm | lbu rd rs1 imm | lhu rd rs1 imm =>
    obtain ⟨ho, h3, rfl, rfl, rfl⟩ := h
    rw [select_load ho, h3]
    rfl
  | sb rs1 rs2 imm | sh rs1 rs2 imm | sw rs1 rs2 imm =>
    obtain ⟨ho, h3, rfl, rfl, rfl⟩ := h
    rw [select_store ho, h3]
    rfl
  | addi rd rs1 imm | slti rd rs1 imm | sltiu rd rs1 imm | xori rd rs1 imm | ori rd rs1 imm | andi rd rs1 imm =>
    obtain ⟨ho, h3, rfl, rfl, rfl⟩ := h
    rw [select_opImm ho, h3]
    rfl
  | slli rd rs1 imm | srli rd rs1 imm | srai rd rs1 imm =>
    obtain ⟨ho, h3, h7, rfl, rfl, rfl⟩ := h
    rw [select_opImm ho, h3, h7]
    rfl
  | add rd rs1 rs2 | sub rd rs1 rs2 | sll rd rs1 rs2 | slt rd rs1 rs2 | sltu rd rs1 rs2 | xor rd rs1 rs2
  | srl rd rs1 rs2 | sra rd rs1 rs2 | or rd rs1 rs2 | and rd rs1 rs2 =>
    obtain ⟨ho, h3, h7, rfl, rfl, rfl⟩ := h
    rw [select_op ho, h3, h7]
    rfl
  | fence rd rs1 imm => obtain ⟨ho, h3, rfl, rfl, rfl⟩ := h; rw [select_fence ho, if_pos h3]
  | ecall => cases h; rfl
  | ebreak => cases h; rfl

/-- What the decoder answers is what the word spells. -/
theorem decode_eq_ok_iff {w : Word} {i : Instr} : decode w = .ok i ↔ Spells w i :=
  ⟨decode_spells, fun h => decode_of_select (select_of_spells h)⟩

/-! ## The shift-immediates: seven fixed bits above a 5-bit amount (R124) -/

/-- An I- or S-immediate is a number from -2048 to 2047 (R114, R115). -/
theorem immIS_iff_toInt (imm : Word) : ImmIS imm ↔ -2048 ≤ imm.toInt ∧ imm.toInt ≤ 2047 := by
  have hlow : (imm.extractLsb' 0 12).toNat = imm.toNat % 4096 := by
    simp [BitVec.extractLsb'_toNat]
  have hext : ((imm.extractLsb' 0 12).signExtend 32).toInt = Int.bmod (imm.toNat % 4096 : Nat) 4096 := by
    rw [BitVec.toInt_signExtend_of_le (by omega), BitVec.toInt_eq_toNat_bmod, hlow]
  rw [ImmIS, ← BitVec.toInt_inj, hext, BitVec.toInt_eq_toNat_bmod]
  have := imm.isLt
  simp only [Int.bmod_def]
  omega

/-- The bits above the shift amount as a number. -/
theorem toNat_div_of_high {imm : Word} {c : BitVec 27} (h : imm.extractLsb' 5 27 = c) : imm.toNat / 32 = c.toNat := by
  have := imm.isLt
  rw [← h, BitVec.extractLsb'_toNat, Nat.shiftRight_eq_div_pow]
  omega

/-- A shift-immediate is an I-immediate: with either pattern above the amount it is below 2048. -/
theorem immIS_of_high {imm : Word} {c : BitVec 27} (h : imm.extractLsb' 5 27 = c) (hc : c.toNat < 64) : ImmIS imm := by
  have hdiv := toNat_div_of_high h
  rw [immIS_iff_toInt, BitVec.toInt_eq_toNat_of_lt (by omega)]
  omega

/-- The bits of `imm_I` above the shift amount are funct7, sign-extended. -/
theorem immI_high (w : Word) : (immI w).extractLsb' 5 27 = (funct7Of w).signExtend 27 := by
  apply BitVec.eq_of_getLsbD_eq; intro i hi
  simp only [immI, funct7Of, BitVec.getLsbD_extractLsb', BitVec.getLsbD_signExtend, BitVec.msb_eq_getLsbD_last]
  interval_cases i <;> simp

/-! ## A well-formed instruction's word spells it, and only that word does -/

/-- Each format's fields cut back out of the word it builds. -/
theorem encode_spells {i : Instr} (h : i.WellFormed) : Spells (encode i) i := by
  cases i with
  | lui rd imm | auipc rd imm =>
    exact ⟨opcodeOf_encU .., (rdOf_encU ..).symm, (immU_encU _ _ _ (of_decide_eq_true h)).symm⟩
  | jal rd imm =>
    exact ⟨opcodeOf_encJ .., (rdOf_encJ ..).symm, (immJ_encJ _ _ _ (of_decide_eq_true h)).symm⟩
  | beq rs1 rs2 imm | bne rs1 rs2 imm | blt rs1 rs2 imm | bge rs1 rs2 imm | bltu rs1 rs2 imm | bgeu rs1 rs2 imm =>
    exact ⟨opcodeOf_encB .., funct3Of_encB .., (rs1Of_encB ..).symm, (rs2Of_encB ..).symm,
      (immB_encB _ _ _ _ _ (of_decide_eq_true h)).symm⟩
  | sb rs1 rs2 imm | sh rs1 rs2 imm | sw rs1 rs2 imm =>
    exact ⟨opcodeOf_encS .., funct3Of_encS .., (rs1Of_encS ..).symm, (rs2Of_encS ..).symm,
      (immS_encS _ _ _ _ _ (of_decide_eq_true h)).symm⟩
  | jalr rd rs1 imm | fence rd rs1 imm
  | lb rd rs1 imm | lh rd rs1 imm | lw rd rs1 imm | lbu rd rs1 imm | lhu rd rs1 imm
  | addi rd rs1 imm | slti rd rs1 imm | sltiu rd rs1 imm | xori rd rs1 imm | ori rd rs1 imm | andi rd rs1 imm =>
    exact ⟨opcodeOf_encI .., funct3Of_encI .., (rdOf_encI ..).symm, (rs1Of_encI ..).symm,
      (immI_encI _ _ _ _ _ (of_decide_eq_true h)).symm⟩
  | slli rd rs1 imm | srli rd rs1 imm | srai rd rs1 imm =>
    have hhigh := of_decide_eq_true h
    exact ⟨opcodeOf_encI .., funct3Of_encI .., (funct7Of_encI ..).trans (Laws.extractLsb'_5_7 hhigh),
      (rdOf_encI ..).symm, (rs1Of_encI ..).symm, (immI_encI _ _ _ _ _ (immIS_of_high hhigh (by decide))).symm⟩
  | add rd rs1 rs2 | sub rd rs1 rs2 | sll rd rs1 rs2 | slt rd rs1 rs2 | sltu rd rs1 rs2 | xor rd rs1 rs2
  | srl rd rs1 rs2 | sra rd rs1 rs2 | or rd rs1 rs2 | and rd rs1 rs2 =>
    exact ⟨opcodeOf_encR .., funct3Of_encR .., funct7Of_encR .., (rdOf_encR ..).symm, (rs1Of_encR ..).symm,
      (rs2Of_encR ..).symm⟩
  | ecall => rfl
  | ebreak => rfl

/-- Each format put together again from the word's fields, whose immediate the format can spell. -/
theorem Spells.wellFormed_encode {w : Word} {i : Instr} (h : Spells w i) : i.WellFormed ∧ encode i = w := by
  cases i with
  | lui rd imm | auipc rd imm =>
    obtain ⟨ho, rfl, rfl⟩ := h
    exact ⟨decide_eq_true (immU_fits w), by rw [encode, ← ho, encU_of_fields]⟩
  | jal rd imm =>
    obtain ⟨ho, rfl, rfl⟩ := h
    exact ⟨decide_eq_true (immJ_fits w), by rw [encode, ← ho, encJ_of_fields]⟩
  | beq rs1 rs2 imm | bne rs1 rs2 imm | blt rs1 rs2 imm | bge rs1 rs2 imm | bltu rs1 rs2 imm | bgeu rs1 rs2 imm =>
    obtain ⟨ho, h3, rfl, rfl, rfl⟩ := h
    exact ⟨decide_eq_true (immB_fits w), by rw [encode, ← ho, ← h3, encB_of_fields]⟩
  | sb rs1 rs2 imm | sh rs1 rs2 imm | sw rs1 rs2 imm =>
    obtain ⟨ho, h3, rfl, rfl, rfl⟩ := h
    exact ⟨decide_eq_true (immS_fits w), by rw [encode, ← ho, ← h3, encS_of_fields]⟩
  | jalr rd rs1 imm | fence rd rs1 imm
  | lb rd rs1 imm | lh rd rs1 imm | lw rd rs1 imm | lbu rd rs1 imm | lhu rd rs1 imm
  | addi rd rs1 imm | slti rd rs1 imm | sltiu rd rs1 imm | xori rd rs1 imm | ori rd rs1 imm | andi rd rs1 imm =>
    obtain ⟨ho, h3, rfl, rfl, rfl⟩ := h
    exact ⟨decide_eq_true (immI_fits w), by rw [encode, ← ho, ← h3, encI_of_fields]⟩
  | slli rd rs1 imm | srli rd rs1 imm | srai rd rs1 imm =>
    obtain ⟨ho, h3, h7, rfl, rfl, rfl⟩ := h
    exact ⟨decide_eq_true ((immI_high w).trans (congrArg _ h7)), by rw [encode, ← ho, ← h3, encI_of_fields]⟩
  | add rd rs1 rs2 | sub rd rs1 rs2 | sll rd rs1 rs2 | slt rd rs1 rs2 | sltu rd rs1 rs2 | xor rd rs1 rs2
  | srl rd rs1 rs2 | sra rd rs1 rs2 | or rd rs1 rs2 | and rd rs1 rs2 =>
    obtain ⟨ho, h3, h7, rfl, rfl, rfl⟩ := h
    exact ⟨rfl, by rw [encode, ← ho, ← h3, ← h7, encR_of_fields]⟩
  | ecall => exact ⟨rfl, h.symm⟩
  | ebreak => exact ⟨rfl, h.symm⟩

/-- Settles O2: the word of a well-formed instruction spells it. -/
theorem decodeOfEncodeIsTheInstruction : Obligations.DecodeOfEncodeIsTheInstruction :=
  fun _ h => decode_eq_ok_iff.2 (encode_spells h)

/-- Settles O3: what the decoder answers the word spells, and it is that instruction's word. -/
theorem encodeOfDecodeIsTheWord : Obligations.EncodeOfDecodeIsTheWord :=
  fun _ _ h => (decode_spells h).wellFormed_encode

end Sys2Proof
end

section
/-!
SUPPORT. The instruction list R150 beside the decoder: each row's fixed bits decide the decoder's answer.
-/

namespace Sys2Proof

/-! ## What a row's mask and pattern fix -/

/-- Bits that the mask covers wholly are the pattern's. -/
theorem extractLsb'_of_and_eq {w m p : Word} {n len : Nat} (h : w &&& m = p)
    (hm : m.extractLsb' n len = BitVec.allOnes len) : w.extractLsb' n len = p.extractLsb' n len := by
  rw [← h, BitVec.extractLsb'_and, hm, BitVec.and_allOnes]

section
variable {r : OpcodeRow} {w : Word} (h : r.Matches w)
include h

theorem OpcodeRow.Matches.opcode (hm : opcodeOf r.mask = BitVec.allOnes 7) : opcodeOf w = opcodeOf r.pattern :=
  extractLsb'_of_and_eq h hm

theorem OpcodeRow.Matches.funct3 (hm : funct3Of r.mask = BitVec.allOnes 3) : funct3Of w = funct3Of r.pattern :=
  extractLsb'_of_and_eq h hm

theorem OpcodeRow.Matches.funct7 (hm : funct7Of r.mask = BitVec.allOnes 7) : funct7Of w = funct7Of r.pattern :=
  extractLsb'_of_and_eq h hm

end

/-- The decoder answers the instruction of the row `r` for every word the row selects. -/
def OpcodeRow.Decodes (r : OpcodeRow) : Prop :=
  ∀ w, r.Matches w → ∃ i, decode w = .ok i ∧ i.mnemonic = r.mnemonic

theorem opcodeRowsJumpUpper_decode : ∀ r ∈ opcodeRowsJumpUpper, r.Decodes := by
  simp only [opcodeRowsJumpUpper, List.forall_mem_cons]
  refine ⟨?lui, ?auipc, ?jal, ?jalr, List.forall_mem_nil _⟩ <;> intro w h
  case lui => exact ⟨_, decode_of_select (select_lui (h.opcode rfl)), rfl⟩
  case auipc => exact ⟨_, decode_of_select (select_auipc (h.opcode rfl)), rfl⟩
  case jal => exact ⟨_, decode_of_select (select_jal (h.opcode rfl)), rfl⟩
  case jalr =>
    exact ⟨_, decode_of_select (by rw [select_jalr (h.opcode rfl), h.funct3 rfl]; rfl), rfl⟩

theorem opcodeRowsBranch_decode : ∀ r ∈ opcodeRowsBranch, r.Decodes := by
  simp only [opcodeRowsBranch, List.forall_mem_cons]
  refine ⟨?beq, ?bne, ?blt, ?bge, ?bltu, ?bgeu, List.forall_mem_nil _⟩ <;> intro w h
  case beq | bne | blt | bge | bltu | bgeu =>
    exact ⟨_, decode_of_select (by rw [select_branch (h.opcode rfl), h.funct3 rfl]; rfl), rfl⟩

theorem opcodeRowsMemory_decode : ∀ r ∈ opcodeRowsMemory, r.Decodes := by
  simp only [opcodeRowsMemory, List.forall_mem_cons]
  refine ⟨?lb, ?lh, ?lw, ?lbu, ?lhu, ?sb, ?sh, ?sw, List.forall_mem_nil _⟩ <;> intro w h
  case lb | lh | lw | lbu | lhu =>
    exact ⟨_, decode_of_select (by rw [select_load (h.opcode rfl), h.funct3 rfl]; rfl), rfl⟩
  case sb | sh | sw =>
    exact ⟨_, decode_of_select (by rw [select_store (h.opcode rfl), h.funct3 rfl]; rfl), rfl⟩

theorem opcodeRowsImm_decode : ∀ r ∈ opcodeRowsImm, r.Decodes := by
  simp only [opcodeRowsImm, List.forall_mem_cons]
  refine ⟨?addi, ?slti, ?sltiu, ?xori, ?ori, ?andi, ?slli, ?srli, ?srai, List.forall_mem_nil _⟩ <;> intro w h
  case addi | slti | sltiu | xori | ori | andi =>
    exact ⟨_, decode_of_select (by rw [select_opImm (h.opcode rfl), h.funct3 rfl]; rfl), rfl⟩
  case slli | srli | srai =>
    exact ⟨_, decode_of_select (by
      rw [select_opImm (h.opcode rfl), h.funct3 rfl, h.funct7 rfl]; rfl), rfl⟩

theorem opcodeRowsReg_decode : ∀ r ∈ opcodeRowsReg, r.Decodes := by
  simp only [opcodeRowsReg, List.forall_mem_cons]
  refine ⟨?add, ?sub, ?sll, ?slt, ?sltu, ?xor, ?srl, ?sra, ?or, ?and, List.forall_mem_nil _⟩ <;> intro w h
  case add | sub | sll | slt | sltu | xor | srl | sra | or | and =>
    exact ⟨_, decode_of_select (by
      rw [select_op (h.opcode rfl), h.funct3 rfl, h.funct7 rfl]; rfl), rfl⟩

theorem opcodeRowsSystem_decode : ∀ r ∈ opcodeRowsSystem, r.Decodes := by
  simp only [opcodeRowsSystem, List.forall_mem_cons]
  refine ⟨?fence, ?ecall, ?ebreak, List.forall_mem_nil _⟩ <;> intro w h
  case fence =>
    exact ⟨_, decode_of_select (by rw [select_fence (h.opcode rfl), h.funct3 rfl]; rfl), rfl⟩
  case ecall => exact ⟨.ecall, decode_eq_ok_iff.2 (BitVec.and_allOnes.symm.trans h), rfl⟩
  case ebreak => exact ⟨.ebreak, decode_eq_ok_iff.2 (BitVec.and_allOnes.symm.trans h), rfl⟩

/-- Every row of the list, group by group. -/
theorem opcodeTable_decodes : ∀ r ∈ opcodeTable, r.Decodes := by
  simp only [opcodeTable, List.forall_mem_append]
  exact ⟨⟨⟨⟨⟨opcodeRowsJumpUpper_decode, opcodeRowsBranch_decode⟩, opcodeRowsMemory_decode⟩, opcodeRowsImm_decode⟩,
    opcodeRowsReg_decode⟩, opcodeRowsSystem_decode⟩

/-- Every instruction's own row selects its word. -/
theorem Laws.EncodesItsRow.all : (i : Instr) → Laws.EncodesItsRow.Statement i
  | .lui _ _ => Laws.EncodesItsRow.lui _ _
  | .auipc _ _ => Laws.EncodesItsRow.auipc _ _
  | .jal _ _ => Laws.EncodesItsRow.jal _ _
  | .jalr _ _ _ => Laws.EncodesItsRow.jalr _ _ _
  | .beq _ _ _ => Laws.EncodesItsRow.beq _ _ _
  | .bne _ _ _ => Laws.EncodesItsRow.bne _ _ _
  | .blt _ _ _ => Laws.EncodesItsRow.blt _ _ _
  | .bge _ _ _ => Laws.EncodesItsRow.bge _ _ _
  | .bltu _ _ _ => Laws.EncodesItsRow.bltu _ _ _
  | .bgeu _ _ _ => Laws.EncodesItsRow.bgeu _ _ _
  | .lb _ _ _ => Laws.EncodesItsRow.lb _ _ _
  | .lh _ _ _ => Laws.EncodesItsRow.lh _ _ _
  | .lw _ _ _ => Laws.EncodesItsRow.lw _ _ _
  | .lbu _ _ _ => Laws.EncodesItsRow.lbu _ _ _
  | .lhu _ _ _ => Laws.EncodesItsRow.lhu _ _ _
  | .sb _ _ _ => Laws.EncodesItsRow.sb _ _ _
  | .sh _ _ _ => Laws.EncodesItsRow.sh _ _ _
  | .sw _ _ _ => Laws.EncodesItsRow.sw _ _ _
  | .addi _ _ _ => Laws.EncodesItsRow.addi _ _ _
  | .slti _ _ _ => Laws.EncodesItsRow.slti _ _ _
  | .sltiu _ _ _ => Laws.EncodesItsRow.sltiu _ _ _
  | .xori _ _ _ => Laws.EncodesItsRow.xori _ _ _
  | .ori _ _ _ => Laws.EncodesItsRow.ori _ _ _
  | .andi _ _ _ => Laws.EncodesItsRow.andi _ _ _
  | .slli _ _ _ => Laws.EncodesItsRow.slli _ _ _
  | .srli _ _ _ => Laws.EncodesItsRow.srli _ _ _
  | .srai _ _ _ => Laws.EncodesItsRow.srai _ _ _
  | .add _ _ _ => Laws.EncodesItsRow.add _ _ _
  | .sub _ _ _ => Laws.EncodesItsRow.sub _ _ _
  | .sll _ _ _ => Laws.EncodesItsRow.sll _ _ _
  | .slt _ _ _ => Laws.EncodesItsRow.slt _ _ _
  | .sltu _ _ _ => Laws.EncodesItsRow.sltu _ _ _
  | .xor _ _ _ => Laws.EncodesItsRow.xor _ _ _
  | .srl _ _ _ => Laws.EncodesItsRow.srl _ _ _
  | .sra _ _ _ => Laws.EncodesItsRow.sra _ _ _
  | .or _ _ _ => Laws.EncodesItsRow.or _ _ _
  | .and _ _ _ => Laws.EncodesItsRow.and _ _ _
  | .fence _ _ _ => Laws.EncodesItsRow.fence _ _ _
  | .ecall => Laws.EncodesItsRow.ecall
  | .ebreak => Laws.EncodesItsRow.ebreak

/-- No two rows name the same instruction. -/
theorem opcodeTable_mnemonics_nodup : (opcodeTable.map OpcodeRow.mnemonic).Nodup := by
  decide

/-- Settles O4: a row's fixed bits decide the decoder's answer, and an answer's word is selected by its own row. -/
theorem decodeAgreesWithTheInstructionList : Obligations.DecodeAgreesWithTheInstructionList := by
  intro w
  refine ⟨fun r hr => opcodeTable_decodes r hr w, fun i hi => ?_⟩
  obtain ⟨hwf, rfl⟩ := encodeOfDecodeIsTheWord w i hi
  exact Laws.EncodesItsRow.all i hwf

/-- Settles O5: both rows name the instruction the word decodes to, and no two rows name the same one. -/
theorem noWordMatchesTwoRows : Obligations.NoWordMatchesTwoRows := by
  intro w r r' hr hr' h h'
  obtain ⟨i, hi, hn⟩ := opcodeTable_decodes r hr w h
  obtain ⟨j, hj, hn'⟩ := opcodeTable_decodes r' hr' w h'
  cases hi.symm.trans hj
  exact List.inj_on_of_nodup_map opcodeTable_mnemonics_nodup hr hr' (hn.symm.trans hn')

end Sys2Proof
end

section
/-!
SUPPORT. The fields and immediates of a word in plain arithmetic, and from that the words decode refuses and the opcodes it
answers alike for every value of their other bits.
-/

namespace Sys2Proof

/-! ## Fields and concatenations as numbers -/

/-- Bits `n` up of a word as a number. -/
theorem toNat_extractLsb'_div (w : Word) (n len : Nat) : (w.extractLsb' n len).toNat = w.toNat / 2 ^ n % 2 ^ len := by
  rw [BitVec.extractLsb'_toNat, Nat.shiftRight_eq_div_pow]

/-- A concatenation as a number: the upper part shifted past the lower one. -/
theorem toNat_append_add {m n : Nat} (x : BitVec m) (y : BitVec n) : (x ++ y).toNat = x.toNat * 2 ^ n + y.toNat := by
  rw [BitVec.toNat_append, ← Nat.shiftLeft_add_eq_or_of_lt y.isLt, Nat.shiftLeft_eq]

theorem opcodeOf_eq_iff (w : Word) (c : BitVec 7) : opcodeOf w = c ↔ w.toNat % 128 = c.toNat := by
  rw [← BitVec.toNat_inj, opcodeOf, toNat_extractLsb'_div, Nat.pow_zero, Nat.div_one]
  rfl

theorem funct3Of_eq_iff (w : Word) (c : BitVec 3) : funct3Of w = c ↔ w.toNat / 2 ^ 12 % 8 = c.toNat := by
  rw [← BitVec.toNat_inj, funct3Of, toNat_extractLsb'_div]
  rfl

/-! ## The words decode refuses -/

/-- Every instruction's word ends in `0b11` (R111). -/
theorem Spells.lowBits {w : Word} {i : Instr} (h : Spells w i) : w.toNat % 4 = 3 := by
  have hopc : ∀ c : BitVec 7, opcodeOf w = c → c.toNat % 4 = 3 → w.toNat % 4 = 3 := fun c hc h4 => by
    have := (opcodeOf_eq_iff w c).1 hc
    omega
  cases i with
  | ecall => cases h; rfl
  | ebreak => cases h; rfl
  | _ => exact hopc _ h.1 rfl

/-- Whatever decode refuses, it refuses as the whole word (R132). -/
theorem decode_error {w : Word} {e : DecodeError} (h : decode w = .error e) : e = .illegalInstruction w := by
  unfold decode at h
  split at h
  · cases h
  · cases h; rfl

/-- Settles O6: an answer's word ends in `0b11`, so any other word is refused, and by name. -/
theorem undecodedWordsAreIllegalByName : Obligations.UndecodedWordsAreIllegalByName := by
  refine ⟨fun _ _ => decode_error, fun w hw => ?_⟩
  cases h : decode w with
  | ok i => exact absurd (decode_spells h).lowBits hw
  | error e => rw [decode_error h]

/-! ## Whole opcodes -/

/-- Settles O9: at these opcodes the selection looks at nothing else. -/
theorem luiAuipcJalTakeEveryWord : Obligations.LuiAuipcJalTakeEveryWord := by
  intro w
  refine ⟨fun h => ?_, fun h => ?_, fun h => ?_⟩
  · exact decode_of_select (select_lui ((opcodeOf_eq_iff w _).2 h))
  · exact decode_of_select (select_auipc ((opcodeOf_eq_iff w _).2 h))
  · exact decode_of_select (select_jal ((opcodeOf_eq_iff w _).2 h))

/-- An opcode with one instruction, at funct3 0 (R128, R130). -/
theorem decode_of_select_ite {w : Word} {i : Instr} (h : select w = if funct3Of w = 0b000 then some i else none) :
    decode w = if w.toNat / 2 ^ 12 % 8 = 0 then .ok i else .error (.illegalInstruction w) := by
  have h3 : funct3Of w = 0b000 ↔ w.toNat / 2 ^ 12 % 8 = 0 := funct3Of_eq_iff w _
  simp only [← h3]
  split_ifs at h ⊢
  · exact decode_of_select h
  · exact decode_of_select_none h

/-- Settles O10: the selection at each of the three opcodes. -/
theorem jalrFenceAndSystemWordsAreStrict : Obligations.JalrFenceAndSystemWordsAreStrict := by
  intro w
  refine ⟨fun h => ?_, fun h => ?_, fun h => ?_⟩
  · exact decode_of_select_ite (select_jalr ((opcodeOf_eq_iff w _).2 h))
  · exact decode_of_select_ite (select_fence ((opcodeOf_eq_iff w _).2 h))
  · have hs : select w = decodeSystem w := select_system ((opcodeOf_eq_iff w _).2 h)
    unfold decodeSystem at hs
    split_ifs at hs ⊢
    · exact decode_of_select hs
    · exact decode_of_select hs
    · exact decode_of_select_none hs

/-- Settles O1: each word evaluated. -/
theorem specWordsDecodeAsWritten : Obligations.SpecWordsDecodeAsWritten := by
  unfold Obligations.SpecWordsDecodeAsWritten
  decide

/-! ## The immediates -/

/-- A sign-extended field reads as its bits in two's complement (R12). -/
theorem toInt_signExtend_word {n : Nat} (x : BitVec n) (h : n ≤ 32) :
    (x.signExtend 32).toInt = Int.bmod x.toNat (2 ^ n) := by
  rw [BitVec.toInt_signExtend_of_le h, BitVec.toInt_eq_toNat_bmod]

theorem immI_toInt (w : Word) : (immI w).toInt = Int.bmod (w.toNat / 2 ^ 20) 4096 := by
  rw [immI, toInt_signExtend_word _ (by omega), toNat_extractLsb'_div, Nat.mod_eq_of_lt (by omega)]
  rfl

theorem immS_toInt (w : Word) : (immS w).toInt = Int.bmod (w.toNat / 2 ^ 25 * 32 + w.toNat / 2 ^ 7 % 32) 4096 := by
  rw [immS, toInt_signExtend_word _ (by omega)]
  simp only [toNat_append_add, toNat_extractLsb'_div]
  rw [Nat.mod_eq_of_lt (a := w.toNat / 2 ^ 25) (by omega)]
  rfl

theorem immU_toNat (w : Word) : (immU w).toNat = w.toNat / 4096 * 4096 := by
  rw [immU, toNat_append_add, toNat_extractLsb'_div, BitVec.toNat_ofNat]
  omega

theorem immB_toInt (w : Word) : (immB w).toInt = Int.bmod (w.toNat / 2 ^ 31 * 4096 + w.toNat / 2 ^ 7 % 2 * 2048 +
      w.toNat / 2 ^ 25 % 64 * 32 + w.toNat / 2 ^ 8 % 16 * 2) 8192 := by
  rw [immB, toInt_signExtend_word _ (by omega)]
  congr 1
  simp only [toNat_append_add, toNat_extractLsb'_div]
  push_cast
  omega

theorem immJ_toInt (w : Word) : (immJ w).toInt = Int.bmod (w.toNat / 2 ^ 31 * 1048576 + w.toNat / 2 ^ 12 % 256 * 4096 +
      w.toNat / 2 ^ 20 % 2 * 2048 + w.toNat / 2 ^ 21 % 1024 * 2) 2097152 := by
  rw [immJ, toInt_signExtend_word _ (by omega)]
  congr 1
  simp only [toNat_append_add, toNat_extractLsb'_div]
  push_cast
  omega

/-- Settles O7: the numbers, and the ranges of any immediate these formats can spell. -/
theorem immediatesOfIAndSAndUAreTheirBits : Obligations.ImmediatesOfIAndSAndUAreTheirBits := by
  intro w
  obtain ⟨hI, hI'⟩ := (immIS_iff_toInt _).1 (immI_fits w)
  obtain ⟨hS, hS'⟩ := (immIS_iff_toInt _).1 (immS_fits w)
  exact ⟨immI_toInt w, hI, hI', immS_toInt w, hS, hS', immU_toNat w⟩

/-- Settles O8: the numbers, each the least residue of an even sum by an even modulus. -/
theorem immediatesOfBAndJAreTheirBits : Obligations.ImmediatesOfBAndJAreTheirBits := by
  intro w
  have hB := immB_toInt w
  have hJ := immJ_toInt w
  refine ⟨hB, ?_, ?_, ?_, hJ, ?_, ?_, ?_⟩
  all_goals simp only [hB, hJ, Int.bmod_def]; omega

end Sys2Proof
end

section
/-!
SUPPORT. The parity of the pc: every offset the decoder gives is even, and a step keeps an even pc even.
-/

namespace Sys2Proof.Machine

/-- Parity is bit 0, which a sum takes from its operands' (R39). -/
theorem toNat_add_even {a b : Word} (ha : a.toNat % 2 = 0) (hb : b.toNat % 2 = 0) : (a + b).toNat % 2 = 0 := by
  rw [BitVec.toNat_add]
  omega

/-- A B- or J-immediate is even: its bit 0 is 0 (R116, R118). -/
theorem toNat_even_of_bit0 {imm : Word} (h : imm.extractLsb' 0 1 = 0) : imm.toNat % 2 = 0 := by
  have h0 := congrArg BitVec.toNat h
  rwa [toNat_extractLsb'_div, Nat.pow_zero, Nat.div_one] at h0

/-- JALR's target is even (R291). -/
theorem toNat_clearBit0_even (a : Word) : (a &&& ~~~1#32).toNat % 2 = 0 := by
  apply toNat_even_of_bit0
  rw [BitVec.extractLsb'_and]
  exact BitVec.and_zero

/-- From an even pc, a well-formed instruction's NextPc is even. -/
theorem nextPcTable_even {i : Instr} {s : State} (hi : i.WellFormed) (hp : s.pc.toNat % 2 = 0) :
    (nextPcTable i s).toNat % 2 = 0 := by
  have hnext : (s.pc + 4).toNat % 2 = 0 := toNat_add_even hp rfl
  have hrel : ∀ imm : Word, imm.extractLsb' 0 1 = 0 → (s.pc + imm).toNat % 2 = 0 := fun imm h0 =>
    toNat_add_even hp (toNat_even_of_bit0 h0)
  cases i with
  | jal rd imm => exact hrel imm (of_decide_eq_true hi).2
  | jalr rd rs1 imm => exact toNat_clearBit0_even _
  | beq rs1 rs2 imm | bne rs1 rs2 imm | blt rs1 rs2 imm | bge rs1 rs2 imm | bltu rs1 rs2 imm | bgeu rs1 rs2 imm =>
    have htaken := hrel imm (of_decide_eq_true hi).2
    simp only [nextPcTable]
    split
    · exact htaken
    · exact hnext
  | ecall => exact hp
  | _ => exact hnext

/-- Settles O50: a step keeps the pc or commits the NextPc of an instruction that was decoded, which is well-formed. -/
theorem evenPcStaysEven : Obligations.EvenPcStaysEven := by
  intro s t hp h
  cases step_inv h with
  | stays hr => exact hp
  | fetchFaults f hr hf => exact hp
  | executes i _ hr hf he =>
    obtain ⟨w, -, hd⟩ := decode_of_fetchInstr hf
    obtain ⟨hwf, -⟩ := encodeOfDecodeIsTheWord w i hd
    obtain ⟨-, hpc⟩ | ⟨-, hpc⟩ := he.continues_or_ends
    · rw [hpc]
      exact nextPcTable_even hwf hp
    · rw [hpc]
      exact hp

end Sys2Proof.Machine
end

section
/-!
SUPPORT. The reading aid's split of a constant into an upper and a lower immediate, and the expansions of `li` (R171).
-/

namespace Sys2Proof.Machine

/-! ## hi and lo -/

/-- `hi(v)` as a number. -/
theorem hi20_toNat (v : Word) : (hi20 v).toNat = (v.toNat + 0x800) / 4096 % 2 ^ 20 := by
  have hadd : (v + 0x800).toNat = (v.toNat + 0x800) % 2 ^ 32 := BitVec.toNat_add ..
  rw [hi20, toNat_extractLsb'_div, hadd]
  omega

/-- `hi(v) << 12` has nothing below bit 12. -/
theorem hiImm_fits (v : Word) : ImmU (hiImm v) :=
  BitVec.extractLsb'_append_eq_right

/-- `hi(v)` is rounded to the nearest, so what is left is a signed 12-bit number. -/
theorem loImm_fits (v : Word) : ImmIS (loImm v) := by
  have hhi : (hiImm v).toNat = (v.toNat + 0x800) / 4096 % 2 ^ 20 * 2 ^ 12 := by
    rw [hiImm, toNat_append_add, hi20_toNat, BitVec.toNat_ofNat, Nat.zero_mod, Nat.add_zero]
  rw [immIS_iff_toInt, BitVec.toInt_eq_toNat_bmod, loImm, BitVec.toNat_sub, hhi]
  have := v.isLt
  simp only [Int.bmod_def]
  omega

theorem hiImm_add_loImm (v : Word) : hiImm v + loImm v = v := by
  rw [loImm, BitVec.add_comm, BitVec.sub_add_cancel]

/-- Settles O57: the lower part is the rest, so only its range and the upper part's value need arithmetic. -/
theorem hiAndLoSplitEveryWord : Obligations.HiAndLoSplitEveryWord := fun v =>
  ⟨hiImm_add_loImm v, hiImm_fits v, loImm_fits v, hi20_toNat v⟩

/-! ## li -/

theorem exec_lui_eq (rd : RegIdx) (imm : Word) (s : State) :
    exec (.lui rd imm) s = .next ((s.writeReg rd imm).setPc (nextPc s)) := rfl

theorem exec_addi_eq (rd rs1 : RegIdx) (imm : Word) (s : State) :
    exec (.addi rd rs1 imm) s = .next ((s.writeReg rd (s.readReg rs1 + imm)).setPc (nextPc s)) := rfl

/-- The register a result was written to reads as the result. -/
theorem readReg_writeReg_setPc {rd : RegIdx} (h : rd ≠ 0#5) (v p : Word) (s : State) :
    ((s.writeReg rd v).setPc p).readReg rd = v := by
  rw [State.setPc_readReg, State.readReg_writeReg, if_pos ⟨rfl, h⟩]

/-- Each expansion of `li` and the constants it is for. -/
theorem expand_li_cases (rd : RegIdx) (v : Word) :
    ((Pseudo.li rd v).expand = [.addi rd 0 v] ∧ ImmIS v) ∨
    ((Pseudo.li rd v).expand = [.lui rd (hiImm v)] ∧ loImm v = 0#32) ∨
    (Pseudo.li rd v).expand = [.lui rd (hiImm v), .addi rd rd (loImm v)] := by
  simp only [immIS_iff_toInt, Pseudo.expand]
  split_ifs with hshort hlo
  · exact .inl ⟨rfl, hshort⟩
  · exact .inr (.inl ⟨rfl, hlo⟩)
  · exact .inr (.inr rfl)

/-- Settles O58: each expansion by what `addi` and `lui` write, the upper and lower part adding up to the constant. -/
theorem liExpansionLoadsItsConstant : Obligations.LiExpansionLoadsItsConstant := by
  intro s rd v hrd
  obtain ⟨he, hv⟩ | ⟨he, hlo⟩ | he := expand_li_cases rd v
  · refine ⟨.inl he, fun i hi => ?_, fun i j hij => ?_⟩
    · cases he.symm.trans hi
      refine ⟨decide_eq_true hv, _, exec_addi_eq .., ?_⟩
      rw [readReg_writeReg_setPc hrd]
      exact BitVec.zero_add v
    · cases he.symm.trans hij
  · refine ⟨.inr (.inl he), fun i hi => ?_, fun i j hij => ?_⟩
    · cases he.symm.trans hi
      refine ⟨decide_eq_true (hiImm_fits v), _, exec_lui_eq .., ?_⟩
      rw [readReg_writeReg_setPc hrd]
      simpa only [hlo, BitVec.add_zero] using hiImm_add_loImm v
    · cases he.symm.trans hij
  · refine ⟨.inr (.inr he), fun i hi => ?_, fun i j hij => ?_⟩
    · cases he.symm.trans hi
    · cases he.symm.trans hij
      refine ⟨decide_eq_true (hiImm_fits v), decide_eq_true (loImm_fits v), _, _, exec_lui_eq .., exec_addi_eq .., ?_⟩
      rw [readReg_writeReg_setPc hrd, readReg_writeReg_setPc hrd, hiImm_add_loImm]

end Sys2Proof.Machine
end

section
/-!
SUPPORT. The register-register and register-immediate instructions (spec/40_alu.md): each writes one result and goes on at
`pc + 4`, so that what tells them apart is the value written and the words that decode to them.
-/

namespace Sys2Proof.Machine

/-! ## What writing a result changes -/

/-- A written result is the only change beside the pc (R31, R32, R38). -/
theorem writesOnly_writeReg_setPc (s : State) (rd : RegIdx) (v npc : Word) :
    WritesOnly s ((s.writeReg rd v).setPc npc) rd v npc :=
  ⟨fun r => s.readReg_writeReg rd r v, rfl, s.writeReg_mem rd v, fun _ => by simp, s.writeReg_run rd v,
    s.writeReg_params rd v⟩

section
variable {i : Instr} {s : State} {rd : RegIdx} {v : Word}

/-- An instruction that ends in `writeResult` completes; its result may be named by any equal value. -/
theorem exec_writesOnly {v' : Word} (he : exec i s = writeResult rd v s) (hv : v = v') :
    ∃ t, exec i s = .next t ∧ WritesOnly s t rd v' (s.pc + 4) :=
  ⟨_, he, hv ▸ writesOnly_writeReg_setPc s rd v (s.pc + 4)⟩

/-- The same for a result given by its bits. -/
theorem exec_writesOnly_bits {f : Nat → Bool} (he : exec i s = writeResult rd v s) (hf : ∀ k, v.getLsbD k = f k) :
    ∃ t u, exec i s = .next t ∧ WritesOnly s t rd u (s.pc + 4) ∧ ∀ k < 32, u.getLsbD k = f k :=
  ⟨_, v, he, writesOnly_writeReg_setPc s rd v (s.pc + 4), fun k _ => hf k⟩

end

/-! ## The words that decode to them -/

/-- An OP-IMM word that is no shift is I-shaped (R124): the immediate it was built from is the one it has. -/
theorem decode_opImm {i : Instr} {w imm : Word} {f3 : BitVec 3} {rd rs1 : RegIdx}
    (hs : Spells w i = (opcodeOf w = 0b0010011 ∧ funct3Of w = f3 ∧ rd = rdOf w ∧ rs1 = rs1Of w ∧ imm = immI w))
    (hw : w = encI f3 0b0010011 rd rs1 imm) (hi : imm = immI w) : decode w = .ok i := by
  subst hw
  rw [decode_eq_ok_iff, hs]
  exact ⟨opcodeOf_encI .., funct3Of_encI .., (rdOf_encI ..).symm, (rs1Of_encI ..).symm, hi⟩

/-- A shift-immediate's word is R-shaped, with the amount in place of rs2 (R124). -/
theorem decode_shiftImm {i : Instr} {w imm : Word} {f7 : BitVec 7} {f3 : BitVec 3} {rd rs1 sh : RegIdx}
    (hs : Spells w i = (opcodeOf w = 0b0010011 ∧ funct3Of w = f3 ∧ funct7Of w = f7 ∧ rd = rdOf w ∧ rs1 = rs1Of w ∧
      imm = immI w))
    (hw : w = encR f7 f3 0b0010011 rd rs1 sh) (hi : imm = immI w) : decode w = .ok i := by
  subst hw
  rw [decode_eq_ok_iff, hs]
  exact ⟨opcodeOf_encR .., funct3Of_encR .., funct7Of_encR .., (rdOf_encR ..).symm, (rs1Of_encR ..).symm, hi⟩

/-! ## Sums, differences and bits -/

/-- A difference modulo 2^32, by way of the integers. -/
theorem sub_eq_ofInt (a b : Word) : a - b = BitVec.ofInt 32 (a.toNat - b.toNat) := by
  have hofInt (c : Word) : BitVec.ofInt 32 c.toNat = c := by
    rw [BitVec.ofInt_natCast, BitVec.ofNat_toNat, BitVec.setWidth_eq]
  rw [sub_eq_iff_eq_add]
  calc a = BitVec.ofInt 32 (a.toNat - b.toNat + b.toNat) := by rw [Int.sub_add_cancel, hofInt]
    _ = BitVec.ofInt 32 (a.toNat - b.toNat) + b := by rw [BitVec.ofInt_add, hofInt]

/-- A sum modulo 2^32 of two numbers read as signed. -/
theorem add_eq_ofInt_toInt (a b : Word) : a + b = BitVec.ofInt 32 (a.toInt + b.toInt) := by
  rw [BitVec.ofInt_add, BitVec.ofInt_toInt, BitVec.ofInt_toInt]

/-- Settles O16: each result is a sum or difference modulo 2^32. -/
theorem addSubAddiResults : Obligations.AddSubAddiResults := fun _ rd rs1 rs2 _ =>
  ⟨exec_writesOnly rfl (BitVec.add_def ..), exec_writesOnly rfl (sub_eq_ofInt ..),
    exec_writesOnly rfl (add_eq_ofInt_toInt ..),
    decodeOfEncodeIsTheInstruction (.add rd rs1 rs2) rfl, decodeOfEncodeIsTheInstruction (.sub rd rs1 rs2) rfl,
    fun _ => decode_opImm rfl⟩

/-- Settles O17: each result bit by bit. -/
theorem bitwiseResults : Obligations.BitwiseResults := fun _ rd rs1 rs2 _ =>
  ⟨exec_writesOnly_bits rfl fun _ => BitVec.getLsbD_xor, exec_writesOnly_bits rfl fun _ => BitVec.getLsbD_or,
    exec_writesOnly_bits rfl fun _ => BitVec.getLsbD_and, exec_writesOnly_bits rfl fun _ => BitVec.getLsbD_xor,
    exec_writesOnly_bits rfl fun _ => BitVec.getLsbD_or, exec_writesOnly_bits rfl fun _ => BitVec.getLsbD_and,
    decodeOfEncodeIsTheInstruction (.xor rd rs1 rs2) rfl, decodeOfEncodeIsTheInstruction (.or rd rs1 rs2) rfl,
    decodeOfEncodeIsTheInstruction (.and rd rs1 rs2) rfl,
    fun _ => decode_opImm rfl, fun _ => decode_opImm rfl, fun _ => decode_opImm rfl⟩

/-! ## Shifts -/

/-- The shift amount as a number (R200). -/
theorem shiftAmount_toNat (v : Word) : (shiftAmount v).toNat = v.toNat % 32 := by
  simp only [shiftAmount, toNat_extractLsb'_div, Nat.pow_zero, Nat.div_one, Nat.reducePow]

theorem shiftLeft_shiftAmount (a b : Word) :
    shiftLeft a (shiftAmount b) = BitVec.ofNat 32 (a.toNat * 2 ^ (b.toNat % 32)) := by
  apply BitVec.eq_of_toNat_eq
  rw [shiftLeft, shiftAmount_toNat, BitVec.toNat_shiftLeft, Nat.shiftLeft_eq, BitVec.toNat_ofNat]

theorem shiftRightU_shiftAmount (a b : Word) :
    shiftRightU a (shiftAmount b) = BitVec.ofNat 32 (a.toNat / 2 ^ (b.toNat % 32)) := by
  apply BitVec.eq_of_toNat_eq
  rw [shiftRightU, shiftAmount_toNat, BitVec.toNat_ushiftRight, Nat.shiftRight_eq_div_pow, BitVec.toNat_ofNat,
    Nat.mod_eq_of_lt ((Nat.div_le_self ..).trans_lt a.isLt)]

/-- Division of integers by a positive number rounds down, as the arithmetic shift does. -/
theorem shiftRightS_shiftAmount (a b : Word) :
    shiftRightS a (shiftAmount b) = BitVec.ofInt 32 (a.toInt / 2 ^ (b.toNat % 32)) := by
  rw [shiftRightS, shiftAmount_toNat, BitVec.sshiftRight_eq, Int.shiftRight_eq_div_pow, Nat.cast_pow, Nat.cast_ofNat]

/-- Settles O18: each shift as a product or quotient by a power of two. -/
theorem logicalShiftResults : Obligations.LogicalShiftResults := fun _ rd rs1 rs2 _ =>
  ⟨exec_writesOnly rfl (shiftLeft_shiftAmount ..), exec_writesOnly rfl (shiftRightU_shiftAmount ..),
    exec_writesOnly rfl (shiftLeft_shiftAmount ..), exec_writesOnly rfl (shiftRightU_shiftAmount ..),
    decodeOfEncodeIsTheInstruction (.sll rd rs1 rs2) rfl, decodeOfEncodeIsTheInstruction (.srl rd rs1 rs2) rfl,
    fun _ => decode_shiftImm rfl, fun _ => decode_shiftImm rfl⟩

/-- Settles O19: each shift as a signed quotient; bit 10 of SRAI's immediate is no part of the amount. -/
theorem arithmeticShiftResults : Obligations.ArithmeticShiftResults := fun _ rd rs1 rs2 _ =>
  ⟨exec_writesOnly rfl (shiftRightS_shiftAmount ..), exec_writesOnly rfl (shiftRightS_shiftAmount ..),
    decodeOfEncodeIsTheInstruction (.sra rd rs1 rs2) rfl, fun _ => decode_shiftImm rfl⟩

/-! ## Comparisons -/

/-- The Word of a condition, by the proposition it decides (R12). -/
theorem bool32_eq_ite {c : Bool} {p : Prop} [Decidable p] (h : c = true ↔ p) : bool32 c = if p then 1 else 0 :=
  if_congr h rfl rfl

/-- Settles O20: the condition is the signed order. -/
theorem setLessThanSignedResults : Obligations.SetLessThanSignedResults := fun _ rd rs1 rs2 _ =>
  ⟨exec_writesOnly rfl (bool32_eq_ite (condLtS_iff ..)), exec_writesOnly rfl (bool32_eq_ite (condLtS_iff ..)),
    decodeOfEncodeIsTheInstruction (.slt rd rs1 rs2) rfl, fun _ => decode_opImm rfl⟩

/-- Settles O21: the condition is the unsigned order, of the whole sign-extended immediate for SLTIU. -/
theorem setLessThanUnsignedResults : Obligations.SetLessThanUnsignedResults := fun _ rd rs1 rs2 _ =>
  ⟨exec_writesOnly rfl (bool32_eq_ite (condLtU_iff ..)), exec_writesOnly rfl (bool32_eq_ite (condLtU_iff ..)),
    decodeOfEncodeIsTheInstruction (.sltu rd rs1 rs2) rfl, fun _ => decode_opImm rfl⟩

end Sys2Proof.Machine
end

section
/-!
SUPPORT. Loads and stores (spec/41_load_store.md): each makes one access at its effective address, so that what
tells them apart is the value a load gives rd and the bytes a store writes.
-/

namespace Sys2Proof.Machine

/-! ## Little-endian reads as numbers (R73, R76) -/

theorem Memory.readLE_one_toNat (m : Memory) (a : Nat) : (m.readLE a 1).toNat = (m.readByte a).toNat := by
  rw [Memory.readLE_toNat, Memory.readLE, BitVec.toNat_of_zero_length rfl, Nat.mul_zero, Nat.add_zero]

theorem Memory.readLE_two_toNat (m : Memory) (a : Nat) :
    (m.readLE a 2).toNat = (m.readByte a).toNat + 256 * (m.readByte (a + 1)).toNat := by
  rw [Memory.readLE_toNat, Memory.readLE_one_toNat]

theorem Memory.readLE_four_toNat (m : Memory) (a : Nat) :
    (m.readLE a 4).toNat = (m.readByte a).toNat + 256 * (m.readByte (a + 1)).toNat +
      65536 * (m.readByte (a + 2)).toNat + 16777216 * (m.readByte (a + 3)).toNat := by
  simp only [Memory.readLE_toNat m _ 3, Memory.readLE_toNat m _ 2, Memory.readLE_two_toNat, Nat.add_assoc a,
    Nat.reduceAdd]
  omega

/-! ## The extension of a loaded value -/

/-- Zero extension keeps the number the bits spell. -/
theorem setWidth_eq_ofNat {n k : Nat} {x : BitVec n} (h : x.toNat = k) : x.setWidth 32 = BitVec.ofNat 32 k := by
  rw [← h, BitVec.ofNat_toNat]

/-- Sign extension keeps the number the bits spell in two's complement. -/
theorem signExtend_eq_ofInt_bmod {n k : Nat} {x : BitVec n} (h : x.toNat = k) :
    x.signExtend 32 = BitVec.ofInt 32 (Int.bmod k (2 ^ n)) := by
  rw [← h, ← BitVec.toInt_eq_toNat_bmod, BitVec.signExtend]

/-! ## Loads -/

/-- A load in the range completes; its result may be named by any equal value. -/
theorem load_writesOnly {i : Instr} {s : State} {rd : RegIdx} {ea v : Word} (w : Width)
    {ext : BitVec (8 * w.bytes) → Word} (he : exec i s = loadInto rd ea w ext s) (hr : InRange s.params ea w.bytes)
    (hv : ext (s.mem.readLE ea.toNat w.bytes) = v) :
    ∃ t, exec i s = .next t ∧ WritesOnly s t rd v (s.pc + 4) :=
  ⟨_, he.trans (loadInto_ok rd ext hr), hv ▸ writesOnly_writeReg_setPc s rd _ (s.pc + 4)⟩

/-- Settles O24: the one byte read, extended either way, or the fault of the access. -/
theorem loadByteResults : Obligations.LoadByteResults := by
  rintro s rd rs1 imm _ rfl
  have hval := s.mem.readLE_one_toNat (effAddr s rs1 imm).toNat
  refine ⟨fun hr => ⟨load_writesOnly .byte rfl hr ?_, load_writesOnly .byte rfl hr (setWidth_eq_ofNat hval)⟩,
    fun hr => ⟨loadInto_error (w := .byte) rd _ hr, loadInto_error (w := .byte) rd _ hr⟩⟩
  rw [BitVec.toInt_eq_toNat_bmod]
  exact signExtend_eq_ofInt_bmod hval

/-- Settles O25: the little-endian halfword, extended either way, or the fault of the access. -/
theorem loadHalfResults : Obligations.LoadHalfResults := by
  rintro s rd rs1 imm _ _ rfl rfl
  have hval := s.mem.readLE_two_toNat (effAddr s rs1 imm).toNat
  exact ⟨fun hr => ⟨load_writesOnly .half rfl hr (signExtend_eq_ofInt_bmod hval),
      load_writesOnly .half rfl hr (setWidth_eq_ofNat hval)⟩,
    fun hr => ⟨loadInto_error (w := .half) rd _ hr, loadInto_error (w := .half) rd _ hr⟩⟩

/-- Settles O26: the little-endian word, which needs no extension, or the fault of the access. -/
theorem loadWordResults : Obligations.LoadWordResults := by
  rintro s rd rs1 imm _ rfl
  exact ⟨fun hr => load_writesOnly .word rfl hr (setWidth_eq_ofNat (s.mem.readLE_four_toNat _)),
    loadInto_error (w := .word) rd _⟩

/-! ## Stores -/

/-- The bytes written are the only change beside the pc (R77, R38). -/
theorem storesOnly_setMem_setPc {s : State} (hm : s.mem.wf) (a n : Nat) (v npc : Word) :
    StoresOnly s ((s.setMem (s.mem.writeLE a v n)).setPc npc) a n v npc := by
  refine ⟨fun _ => rfl, rfl, rfl, rfl, fun b hlo hhi => ?_, fun b hb => Memory.readByte_writeLE_outside _ _ _ _ hb⟩
  obtain ⟨k, rfl⟩ := Nat.exists_eq_add_of_le hlo
  rw [Nat.add_sub_cancel_left, ← byteOf_eq]
  exact Memory.readByte_writeLE_inside hm a v n (Nat.lt_of_add_lt_add_left hhi)

/-- A store in the range completes and writes its access's bytes. -/
theorem store_storesOnly {i : Instr} {s : State} {ea v : Word} (w : Width) (hm : s.mem.wf)
    (he : exec i s = storeFrom ea w v s) (hr : InRange s.params ea w.bytes) :
    ∃ t, exec i s = .next t ∧ StoresOnly s t ea.toNat w.bytes v (s.pc + 4) :=
  ⟨_, he.trans (storeFrom_ok v hr), storesOnly_setMem_setPc hm ea.toNat w.bytes v (s.pc + 4)⟩

/-- Settles O27: the three stores differ only in their width. -/
theorem storeResults : Obligations.StoreResults := by
  rintro s rs1 rs2 imm _ hm rfl
  exact ⟨store_storesOnly .byte hm rfl, store_storesOnly .half hm rfl, store_storesOnly .word hm rfl⟩

/-- Settles O28: the bounds of the whole access are checked before its first byte is written. -/
theorem storeOutOfBoundsFaultsWhole : Obligations.StoreOutOfBoundsFaultsWhole := by
  rintro s rs1 rs2 imm _ rfl
  exact ⟨storeFrom_error (w := .byte) _, storeFrom_error (w := .half) _, storeFrom_error (w := .word) _⟩

/-! ## A stored word, loaded back -/

/-- The four bytes of a Word just written read back as the Word. -/
theorem Memory.readLE_writeLE_word {m : Memory} (hm : m.wf) (a : Nat) (v : Word) :
    ((m.writeLE a v 4).readLE a 4).setWidth 32 = v := by
  rw [Memory.readLE_writeLE hm, BitVec.setWidth_eq, BitVec.setWidth_eq]

/-- Settles O15: the store leaves the base register, so the load reads the four bytes just written. -/
theorem storedWordLoadsBack : Obligations.StoredWordLoadsBack := by
  intro s rd rs1 rs2 imm hm hr hrd
  refine ⟨_, _, storeFrom_ok (w := .word) _ hr, loadInto_ok (w := .word) rd _ hr, ?_, fun r hne => ?_⟩
  · exact (readReg_writeReg_setPc hrd _ _ _).trans (Memory.readLE_writeLE_word hm _ _)
  · rw [State.setPc_readReg, State.readReg_writeReg, if_neg fun h => hne h.1]
    rfl

end Sys2Proof.Machine
end

section
/-!
SUPPORT. The branches (spec/42_branch.md): each only moves the pc, so that what tells them apart is the condition and
the words that decode to them; and what follows a jump or branch to a misaligned target.
-/

namespace Sys2Proof.Machine

/-! ## What a branch changes -/

/-- The pc is all that committing a NextPc changes (R38). -/
theorem movesOnly_setPc (s : State) (npc : Word) : MovesOnly s (s.setPc npc) npc :=
  ⟨fun _ => rfl, rfl, rfl, fun _ => rfl, rfl, rfl⟩

section
variable {i : Instr} {s : State} {c : Bool} {imm : Word} {p : Prop} [Decidable p]

/-- A branch taken when its condition holds, by the proposition the condition decides (R270). -/
theorem branchIf_movesOnly (he : exec i s = branchIf c imm s) (hc : c = true ↔ p) :
    ∃ t, exec i s = .next t ∧ MovesOnly s t (if p then s.pc + imm else s.pc + 4) :=
  ⟨_, he, if_congr hc rfl rfl ▸ movesOnly_setPc s _⟩

/-- A branch taken when its condition fails: the same with the two targets exchanged. -/
theorem branchIf_not_movesOnly (he : exec i s = branchIf (!c) imm s) (hc : c = true ↔ p) :
    ∃ t, exec i s = .next t ∧ MovesOnly s t (if p then s.pc + 4 else s.pc + imm) := by
  have hnot : (!c) = true ↔ ¬ p := by rw [Bool.not_eq_true', ← Bool.not_eq_true, hc]
  simpa only [ite_not] using branchIf_movesOnly he hnot

end

/-- A word built from an immediate that it also has is the word of a well-formed branch (R116, R127). -/
theorem decode_branch (i : Instr) {w imm : Word} (hf : i.wellFormed = decide (ImmB imm)) (hw : w = encode i)
    (hi : imm = immB w) : decode w = .ok i := by
  have hfits : ImmB imm := hi ▸ immB_fits w
  exact hw ▸ decodeOfEncodeIsTheInstruction i (hf.trans (decide_eq_true hfits))

/-- Settles O29: the condition is equality of the two registers. -/
theorem equalityBranchResults : Obligations.EqualityBranchResults := fun _ rs1 rs2 imm =>
  ⟨branchIf_movesOnly rfl (condEq_iff ..), branchIf_not_movesOnly rfl (condEq_iff ..),
    fun _ => decode_branch (.beq rs1 rs2 imm) rfl, fun _ => decode_branch (.bne rs1 rs2 imm) rfl⟩

/-- Settles O30: the condition is the signed order. -/
theorem signedBranchResults : Obligations.SignedBranchResults := fun _ rs1 rs2 imm =>
  ⟨branchIf_movesOnly rfl (condLtS_iff ..), branchIf_not_movesOnly rfl (condLtS_iff ..),
    fun _ => decode_branch (.blt rs1 rs2 imm) rfl, fun _ => decode_branch (.bge rs1 rs2 imm) rfl⟩

/-- Settles O31: the condition is the unsigned order. -/
theorem unsignedBranchResults : Obligations.UnsignedBranchResults := fun _ rs1 rs2 imm =>
  ⟨branchIf_movesOnly rfl (condLtU_iff ..), branchIf_not_movesOnly rfl (condLtU_iff ..),
    fun _ => decode_branch (.bltu rs1 rs2 imm) rfl, fun _ => decode_branch (.bgeu rs1 rs2 imm) rfl⟩

/-! ## Misaligned targets -/

/-- An instruction that makes no data access and is not ECALL neither faults nor halts (R38). -/
theorem ExecEffect.continues {i : Instr} {s t : State} (h : ExecEffect i s t) (ha : dataAccess i s = none)
    (he : i ≠ .ecall) : t.run = s.run ∧ t.pc = nextPcTable i s := by
  cases h with
  | writes rd v hd hs hl => exact ⟨State.writeReg_run s rd v, rfl⟩
  | stores a w v hd hs hr => exact ⟨rfl, rfl⟩
  | moves hd hn he' => exact ⟨rfl, rfl⟩
  | halts hecall => exact absurd hecall he
  | faults a w hs hr => exact nomatch ha.symm.trans hs

/-- After a jump, its register other than x0 reads as the link (R290, R291). -/
theorem linkAndJump_link {s t : State} {rd : RegIdx} {target : Word} (h : linkAndJump rd target s = .next t)
    (hrd : rd ≠ 0#5) : t.readReg rd = s.pc + 4 := by
  rw [linkAndJump_eq] at h
  cases h
  exact readReg_writeReg_setPc hrd _ _ _

/-- Settles O33: a jump or branch always continues, whatever its target, and only the next fetch checks the pc. -/
theorem misalignedTargetFaultsAtTheNextFetch : Obligations.MisalignedTargetFaultsAtTheNextFetch := by
  intro i s t hi hrun hexec hpc
  have hshape : dataAccess i s = none ∧ i ≠ .ecall ∧
      ∀ rd, i.dest = some rd → ∃ target, exec i s = linkAndJump rd target s := by
    obtain ⟨rd, imm, rfl⟩ | ⟨rd, rs1, imm, rfl⟩ | ⟨rs1, rs2, imm, rfl | rfl | rfl | rfl | rfl | rfl⟩ := hi
    case inl | inr.inl => exact ⟨rfl, nofun, fun | _, rfl => ⟨_, rfl⟩⟩
    all_goals exact ⟨rfl, nofun, nofun⟩
  obtain ⟨hnoData, hnotEcall, hjump⟩ := hshape
  obtain ⟨hkeeps, hnext⟩ := (exec_inv hexec).continues hnoData hnotEcall
  have hrun' : t.run = .running := hkeeps.trans hrun
  refine ⟨hrun', hnext, fun rd hd hrd => ?_, step_misaligned hrun' hpc⟩
  obtain ⟨target, he⟩ := hjump rd hd
  exact linkAndJump_link (he.symm.trans hexec) hrd

end Sys2Proof.Machine
end

section
/-!
SUPPORT. The unconditional jumps (spec/43_jump.md): each writes the link and goes to its target, so that what tells them
apart is the target.
-/

namespace Sys2Proof.Machine

/-- A jump completes whatever its target, which may be named by any equal value (R290, R291). -/
theorem linkAndJump_writesOnly {i : Instr} {s : State} {rd : RegIdx} {target npc : Word}
    (he : exec i s = linkAndJump rd target s) (ht : target = npc) :
    ∃ t, exec i s = .next t ∧ WritesOnly s t rd (s.pc + 4) npc :=
  ⟨_, he.trans (linkAndJump_eq rd target s), ht ▸ writesOnly_writeReg_setPc s rd (s.pc + 4) target⟩

/-- Clearing bit 0 is shifting it out, which rounds down to even. -/
theorem clearBit0_eq_ofNat (a : Word) : a &&& 0xFFFFFFFE = BitVec.ofNat 32 (a.toNat / 2 * 2) := by
  calc a &&& 0xFFFFFFFE = a >>> 1 <<< 1 := (BitVec.shiftLeft_ushiftRight (x := a) (n := 1)).symm
    _ = BitVec.ofNat 32 (a.toNat / 2 * 2) := by
      apply BitVec.eq_of_toNat_eq
      rw [BitVec.toNat_shiftLeft, BitVec.toNat_ushiftRight, Nat.shiftLeft_eq, Nat.shiftRight_eq_div_pow,
        BitVec.toNat_ofNat, Nat.pow_one]

/-- JALR's target, as a number (R291). -/
theorem jalrTarget_eq_ofNat (s : State) (rs1 : RegIdx) (imm : Word) :
    jalrTarget s rs1 imm = BitVec.ofNat 32 (((s.readReg rs1).toNat + imm.toNat) % 2 ^ 32 / 2 * 2) := by
  rw [jalrTarget, clearBit0_eq_ofNat, BitVec.toNat_add]

/-- Settles O32: both link and jump; the target is computed from the registers before the link is written (R41). -/
theorem jumpResults : Obligations.JumpResults := fun s _ rs1 imm =>
  ⟨linkAndJump_writesOnly rfl rfl, linkAndJump_writesOnly rfl (jalrTarget_eq_ofNat s rs1 imm)⟩

end Sys2Proof.Machine
end

section
/-!
SUPPORT. The upper-immediate instructions (spec/44_upper_immediate.md): each writes one result made from its immediate,
AUIPC from its own pc too, and goes on at `pc + 4`.
-/

namespace Sys2Proof.Machine

/-- LUI's opcode is one instruction, so a word built with it decodes to LUI when the immediate is the one the word has
(R117, R129). -/
theorem decode_encU_lui {w imm : Word} {rd : RegIdx} (hw : w = encU 0b0110111 rd imm) (hi : imm = immU w) :
    decode w = .ok (.lui rd imm) := by
  subst hw
  exact decode_eq_ok_iff.2 ⟨opcodeOf_encU .., (rdOf_encU ..).symm, hi⟩

/-- Settles O22: the result is the immediate itself, and a word with its low 12 bits cleared is its U-immediate. -/
theorem luiResult : Obligations.LuiResult := by
  intro s rd imm
  refine ⟨exec_writesOnly rfl rfl, fun w hw hi => decode_encU_lui hw ?_⟩
  exact BitVec.eq_of_toNat_eq (hi.trans (immU_toNat w).symm)

/-- Settles O23: the result is a sum modulo 2^32, of the pc before the step. -/
theorem auipcResult : Obligations.AuipcResult := fun _ _ _ =>
  exec_writesOnly rfl (BitVec.add_def ..)

end Sys2Proof.Machine
end

section
/-!
SUPPORT. The system and fence instructions (spec/45_system.md): ECALL takes the halt with the exit register's value, and
EBREAK and FENCE are no-ops, which go on at `pc + 4` whatever the state.
-/

namespace Sys2Proof.Machine

/-- An instruction that only commits the address after its own changes nothing but the pc (R38). -/
theorem exec_noop_eq {i : Instr} {s : State} (he : exec i s = continueAt (nextPc s) s) :
    exec i s = .next (s.setPc (s.pc + 4)) :=
  he.trans (continueAt_eq (nextPc s) s)

/-- A word built with FENCE's opcode and funct3 decodes to FENCE when the immediate is the one the word has: no other bit
is looked at (R130, R136). -/
theorem decode_encI_fence {w imm : Word} {rd rs1 : RegIdx} (hw : w = encI 0b000 0b0001111 rd rs1 imm)
    (hi : imm = immI w) : decode w = .ok (.fence rd rs1 imm) := by
  subst hw
  exact decode_eq_ok_iff.2 ⟨opcodeOf_encI .., funct3Of_encI .., (rdOf_encI ..).symm, (rs1Of_encI ..).symm, hi⟩

/-- Settles O34: taking the halt writes the run state alone (R339), with the code read from EXIT_REG. -/
theorem ecallHaltsWithTheExitRegister : Obligations.EcallHaltsWithTheExitRegister := fun s =>
  halt_eq (s.readReg s.params.exitReg) s

/-- Settles O35: FENCE is a no-op, and its opcode and funct3 alone select it. -/
theorem fenceOnlyAdvances : Obligations.FenceOnlyAdvances := fun _ _ _ _ =>
  ⟨exec_noop_eq rfl, fun _ => decode_encI_fence⟩

/-- Settles O36: EBREAK is a no-op. -/
theorem ebreakOnlyAdvances : Obligations.EbreakOnlyAdvances := fun _ =>
  exec_noop_eq rfl

end Sys2Proof.Machine
end

section
/-!
SUPPORT. Faults and the halt (spec/60_exceptions.md): the three ways an instruction leaves the run state, the three ways a
fetch fails, and from them exactly which steps fault and what a faulting step leaves.
-/

namespace Sys2Proof.Machine

/-! ## How an instruction ends -/

/-- An instruction leaves the run state with its access in the range, or is ECALL and halts, or faults on its access out of
the range; whatever ends the run writes only the run state (R332, R335, R339). -/
theorem ExecEffect.continues_or_halts_or_faults {i : Instr} {s t : State} (h : ExecEffect i s t) :
    (t.run = s.run ∧ ∀ a w, dataAccess i s = some (a, w) → InRange s.params a w.bytes) ∨
    (i = .ecall ∧ ∃ c, t = s.setRun (.halted c)) ∨
    (∃ a w, dataAccess i s = some (a, w) ∧ ¬ InRange s.params a w.bytes ∧
      t = s.setRun (.faulted (.outOfBounds a w) s.pc)) := by
  cases h with
  | writes rd v hd hs hl =>
    exact .inl ⟨State.writeReg_run s rd v, fun a w e => hl a w (by simpa only [dataAccess, hs] using e)⟩
  | stores a w v hd hs hr =>
    refine .inl ⟨rfl, fun a' w' e => ?_⟩
    simp only [dataAccess, hs] at e
    cases e
    exact hr
  | moves hd ha he => exact .inl ⟨rfl, fun a w e => nomatch ha.symm.trans e⟩
  | halts he => exact .inr (.inl ⟨he, _, rfl⟩)
  | faults a w ha hr => exact .inr (.inr ⟨a, w, ha, hr, rfl⟩)

/-- An instruction whose access is out of the range faults (R335). -/
theorem ExecEffect.faults_of_not_inRange {i : Instr} {s t : State} {a : Word} {w : Width} (h : ExecEffect i s t)
    (ha : dataAccess i s = some (a, w)) (hr : ¬ InRange s.params a w.bytes) :
    ∃ f, t.run = .faulted f s.pc := by
  obtain ⟨-, hin⟩ | ⟨rfl, -⟩ | ⟨_, _, -, -, rfl⟩ := h.continues_or_halts_or_faults
  · exact absurd (hin a w ha) hr
  · exact nomatch ha
  · exact ⟨_, rfl⟩

/-! ## How a fetch fails -/

/-- A fetch that fails finds the pc misaligned, or out of the range, or a word that is no instruction there, and says which
(R334 to R336). -/
theorem fetchInstr_error_cases {s : State} {f : Fault} (h : fetchInstr s = .error f) :
    (s.pc.toNat % 4 ≠ 0 ∧ f = .misalignedFetch s.pc) ∨
    (¬ InRange s.params s.pc 4 ∧ f = .outOfBounds s.pc .word) ∨
    (∃ w, fetchWord s = .ok w ∧ decode w = .error (.illegalInstruction w) ∧ f = .illegalInstruction w) := by
  by_cases ha : s.pc.toNat % 4 = 0
  case neg =>
    rw [fetchInstr_of_fetchWord_error (fetchWord_misaligned ha)] at h
    cases h
    exact .inl ⟨ha, rfl⟩
  by_cases hr : InRange s.params s.pc 4
  case neg =>
    rw [fetchInstr_of_fetchWord_error (fetchWord_outOfRange ha hr)] at h
    cases h
    exact .inr (.inl ⟨hr, rfl⟩)
  have hw := fetchWord_bytes ha hr
  cases hd : decode _ with
  | ok i => exact nomatch h.symm.trans (fetchInstr_of_decode_ok hw hd)
  | error e =>
    rw [fetchInstr_of_decode_error hw hd] at h
    cases decode_error hd
    cases h
    exact .inr (.inr ⟨_, hw, hd, rfl⟩)

/-- Exactly when a fetch fails (R338): each of the three conditions alone makes it fail. -/
theorem fetchInstr_fails_iff (s : State) :
    (∃ f, fetchInstr s = .error f) ↔ s.pc.toNat % 4 ≠ 0 ∨ ¬ InRange s.params s.pc 4 ∨
      ∃ w, fetchWord s = .ok w ∧ decode w = .error (.illegalInstruction w) := by
  constructor
  · rintro ⟨f, hf⟩
    exact (fetchInstr_error_cases hf).imp And.left (.imp And.left fun ⟨w, hw, hd, _⟩ => ⟨w, hw, hd⟩)
  · rintro (ha | hr | ⟨w, hw, hd⟩)
    · exact ⟨_, fetchInstr_of_fetchWord_error (fetchWord_misaligned ha)⟩
    · by_cases ha : s.pc.toNat % 4 = 0
      · exact ⟨_, fetchInstr_of_fetchWord_error (fetchWord_outOfRange ha hr)⟩
      · exact ⟨_, fetchInstr_of_fetchWord_error (fetchWord_misaligned ha)⟩
    · exact ⟨_, fetchInstr_of_decode_error hw hd⟩

/-! ## How a step of a Running core ends -/

section
variable {s t : State} (hrun : s.run = .running) (h : step s = .next t)
include hrun h

/-- A step that faults records the fault with its own pc and writes nothing else, and the fault is the one its fetch raised
or the OutOfBounds of its instruction's access (R331, R332). -/
theorem step_faulted {f : Fault} {p : Word} (ht : t.run = .faulted f p) :
    p = s.pc ∧ t = s.setRun (.faulted f s.pc) ∧
    (fetchInstr s = .error f ∨
      ∃ i a w, fetchInstr s = .ok i ∧ dataAccess i s = some (a, w) ∧ ¬ InRange s.params a w.bytes ∧
        f = .outOfBounds a w) := by
  cases step_inv h with
  | stays hr => exact absurd hrun hr
  | fetchFaults f' hr hf =>
    cases ht
    exact ⟨rfl, rfl, .inl hf⟩
  | executes i _ hr hf he =>
    obtain ⟨hkeeps, -⟩ | ⟨-, c, rfl⟩ | ⟨a, w, ha, hout, rfl⟩ := he.continues_or_halts_or_faults
    · exact nomatch ht.symm.trans (hkeeps.trans hrun)
    · exact nomatch ht
    · cases ht
      exact ⟨rfl, rfl, .inr ⟨i, a, w, hf, ha, hout, rfl⟩⟩

/-- A step that halts ran ECALL and writes only the run state (R339). -/
theorem step_halted {c : Word} (ht : t.run = .halted c) :
    fetchInstr s = .ok .ecall ∧ t = s.setRun (.halted c) := by
  cases step_inv h with
  | stays hr => exact absurd hrun hr
  | fetchFaults f hr hf => exact nomatch ht
  | executes i _ hr hf he =>
    obtain ⟨hkeeps, -⟩ | ⟨rfl, c', rfl⟩ | ⟨a, w, -, -, rfl⟩ := he.continues_or_halts_or_faults
    · exact nomatch ht.symm.trans (hkeeps.trans hrun)
    · cases ht
      exact ⟨hf, rfl⟩
    · exact nomatch ht

/-- A step faults exactly when its fetch fails or its instruction's access is out of the range. -/
theorem step_faults_iff :
    (∃ f p, t.run = .faulted f p) ↔ (∃ f, fetchInstr s = .error f) ∨
      ∃ i a w, fetchInstr s = .ok i ∧ dataAccess i s = some (a, w) ∧ ¬ InRange s.params a w.bytes := by
  constructor
  · rintro ⟨f, p, ht⟩
    obtain ⟨-, -, hfetch | ⟨i, a, w, hf, ha, hr, -⟩⟩ := step_faulted hrun h ht
    · exact .inl ⟨f, hfetch⟩
    · exact .inr ⟨i, a, w, hf, ha, hr⟩
  · rintro (⟨f, hf⟩ | ⟨i, a, w, hf, ha, hr⟩)
    · cases h.symm.trans (step_of_fetchInstr_error hrun hf)
      exact ⟨f, s.pc, rfl⟩
    · have hexec : exec i s = .next t := (step_of_fetchInstr_ok hrun hf).symm.trans h
      obtain ⟨f, ht⟩ := (exec_inv hexec).faults_of_not_inRange ha hr
      exact ⟨f, s.pc, ht⟩

end

/-! ## The obligations -/

/-- Settles O39: a step faults by its fetch or by its instruction's access, and a fetch fails in three ways. -/
theorem stepFaultsExactlyWhenAnAccessOrDecodeFails : Obligations.StepFaultsExactlyWhenAnAccessOrDecodeFails := by
  intro s t hrun h
  rw [step_faults_iff hrun h, fetchInstr_fails_iff, or_assoc, or_assoc]

/-- Settles O40: of the ways a step faults only the fetch's alignment check gives this fault, and an instruction's own fault
is OutOfBounds. -/
theorem misalignedFetchComesFromFetchAlone : Obligations.MisalignedFetchComesFromFetchAlone := by
  refine ⟨fun s t p q hrun h ht => ?_, fun i s t p q hrun h ht => ?_⟩
  · obtain ⟨rfl, -, hfetch | ⟨_, _, _, -, -, -, hne⟩⟩ := step_faulted hrun h ht
    · obtain ⟨ha, hp⟩ | ⟨-, hne⟩ | ⟨_, -, -, hne⟩ := fetchInstr_error_cases hfetch
      · cases hp
        exact ⟨rfl, rfl, ha⟩
      · exact nomatch hne
      · exact nomatch hne
    · exact nomatch hne
  · obtain ⟨hkeeps, -⟩ | ⟨-, c, rfl⟩ | ⟨a, w, -, -, rfl⟩ := (exec_inv h).continues_or_halts_or_faults
    · exact nomatch ht.symm.trans (hkeeps.trans hrun)
    · exact nomatch ht
    · exact nomatch ht

/-- Settles O43: the next state is the old one with the run state written, so all else reads as before. -/
theorem faultingStepCommitsNothing : Obligations.FaultingStepCommitsNothing := by
  intro s t f p hrun h ht
  obtain ⟨hp, rfl, -⟩ := step_faulted hrun h ht
  exact ⟨fun _ => rfl, fun _ => rfl, rfl, hp, rfl⟩

/-- Settles O44: of the three ways an instruction ends only ECALL's halts, and a halted state is terminal. -/
theorem onlyEcallHalts : Obligations.OnlyEcallHalts := by
  refine ⟨fun i s hrun => ?_, fun s t c hrun h ht => ?_⟩
  · obtain ⟨t, h, he⟩ := exec_effect i s
    refine ⟨t, h, ?_⟩
    obtain ⟨hkeeps, -⟩ | ⟨-, c, rfl⟩ | ⟨a, w, -, -, rfl⟩ := he.continues_or_halts_or_faults
    · exact .inl (hkeeps.trans hrun)
    · exact .inr (.inl ⟨c, rfl⟩)
    · exact .inr (.inr ⟨_, rfl⟩)
  · obtain ⟨hf, heq⟩ := step_halted hrun h ht
    exact ⟨hf, heq, step_terminal (ht ▸ nofun)⟩

end Sys2Proof.Machine
end

section
/-!
SUPPORT. The host's interface: what `step()` reports, and a run under the host's budget as so many steps.
-/

namespace Sys2Proof.Machine

/-! ## The report -/

section
variable {s : State}

theorem State.report_of_running (h : s.run = .running) : s.report = .continued s.pc := by
  simp only [State.report, h]

theorem State.report_of_halted {c : Word} (h : s.run = .halted c) : s.report = .halt c := by
  simp only [State.report, h]

theorem State.report_of_faulted {f : Fault} {p : Word} (h : s.run = .faulted f p) : s.report = .fault f p := by
  simp only [State.report, h]

end

/-- `step()` returns the step's state with that state's report (R377). -/
theorem hostStep_of_step {s t : State} (h : step s = .next t) : hostStep s = (t, t.report) := by
  simp only [hostStep, h]

/-- Settles O55: one clause for each run state the step can leave, and a terminal core's step is itself. -/
theorem hostStepReportsTheStep : Obligations.HostStepReportsTheStep := by
  intro s t h
  refine ⟨hostStep_fst h, ?_, ?_, ?_, fun hs => hostStep_of_step (step_terminal hs)⟩ <;> rw [hostStep_of_step h]
  · exact State.report_of_running
  · exact fun _ => State.report_of_halted
  · exact fun _ _ => State.report_of_faulted

/-! ## The run -/

/-- One more step of budget is one step first, from a terminal state too, whose step stays (R44). -/
theorem runFor_succ_of_step {s t : State} (h : step s = .next t) (n : Nat) : runFor (n + 1) s = runFor n t := by
  rw [runFor_succ]
  split
  case isTrue => rw [hostStep_fst h]
  case isFalse hs =>
    cases (step_terminal hs).symm.trans h
    exact (runFor_terminal hs n).symm

/-- A budget may be spent in two parts. -/
theorem runFor_add (n k : Nat) (s : State) : runFor (n + k) s = runFor k (runFor n s) := by
  induction n generalizing s with
  | zero => rw [Nat.zero_add, runFor]
  | succ n ih =>
    obtain ⟨t, h⟩ := step_answers s
    rw [Nat.succ_add, runFor_succ_of_step h, runFor_succ_of_step h, ih]

/-- The host's run is the core's steps, as many as the budget (R378). -/
theorem core_run_eq_runFor (n : Nat) (s : State) : Sys2Proof.core.run n s = .next (runFor n s) := by
  induction n generalizing s with
  | zero => rfl
  | succ n ih =>
    obtain ⟨t, h⟩ := step_answers s
    rw [core_run_succ h, runFor_succ_of_step h, ih]

/-- Settles O56: the budget left over is a run from a terminal state. -/
theorem runEndsInOneResult : Obligations.RunEndsInOneResult := by
  refine ⟨core_run_eq_runFor, fun n k s hend => ?_⟩
  rw [runFor_add, runFor_terminal hend]

end Sys2Proof.Machine
end
